-- ==== Sys2Proof/Word.lean ====
section
/-! DEFINITION. The 16-bit word and the notation of rule R8 (spec/00_scope.md): `u16`, `s16`. -/

namespace Sys2Proof

/-- Every register, memory word and address is a 16-bit pattern (R7, R8). -/
abbrev Word := BitVec 16

/-- One half of a word: the unit in which the model lists memory (log entry 1). -/
abbrev Byte := BitVec 8

/-- `u16(n) = n mod 65536`, the non-negative residue, for any integer (R8). -/
def u16 (n : Int) : Word := BitVec.ofInt 16 n

/-- `s16(v)`: the two's-complement reading of a 16-bit pattern, -32768 to 32767 (R8). -/
def s16 (v : Word) : Int := v.toInt

/-- The unsigned reading of a 16-bit pattern, 0 to 65535, as an integer (R8). -/
def uint (v : Word) : Int := (v.toNat : Int)

end Sys2Proof
end

