-- ==== Sys2Proof/Config.lean ====
section
/-! DEFINITION. The fixed parameters of rule R7 (spec/00_scope.md) and the type of SDIV_ROUND. The decided
parameters a test could show wrong (START, FILL, LITERAL_BIAS, SDIV_ROUND, the reset values) stand in
Sys2Proof/Machine/Params.lean, OPCODE_MAP and LAYOUT in Sys2Proof/Decode.lean. No parameter of this hardware
is a free value: the spec states a result for every instruction on all operand values. -/

namespace Sys2Proof

/-- SDIV_ROUND: how `DVI` and `MDI` round a signed quotient (R7, R157, R159). -/
inductive SDivRound where
  /-- toward zero: the default -/
  | trunc
  /-- toward minus infinity: the other value the spec gives the parameter -/
  | floor
  deriving DecidableEq, Repr

/-- MEMWORDS: the number of memory words (R7, R34). -/
def Config.memWords : Nat := 65536

/-- The most words an instruction has (R7, R75). -/
def Config.maxLength : Nat := 3

end Sys2Proof
end

