-- ==== Sys2Proof/Syntax.lean ====
section
/-! DEFINITION. The instructions as syntax: registers, addressing modes with their extra words, and one
constructor of `Instr` per row of spec/opcode_table.json. -/

namespace Sys2Proof

/-- The eight general registers, in index order 0 to 7 (R20). -/
inductive Reg where
  | A | B | C | X | Y | Z | I | J
  deriving DecidableEq, Repr

/-- The resolver's second input: which operand position is being resolved (R100). -/
inductive Hint where
  /-- the destination position -/
  | b
  /-- the source position -/
  | a
  deriving DecidableEq, Repr

/-- An addressing mode together with the extra word it consumes, if it consumes one (R74, R101 to R113). -/
inductive Mode where
  /-- 0x00 to 0x07, `r` (R101) -/
  | reg (r : Reg)
  /-- 0x08 to 0x0f, `[r]` (R102) -/
  | ind (r : Reg)
  /-- 0x10 to 0x17, `[r+n]`; `n` is the extra word (R103) -/
  | idx (r : Reg) (n : Word)
  /-- 0x18: `POP` in position a, `PUSH` in position b (R104, R105) -/
  | stack
  /-- 0x19, `PEEK` (R106) -/
  | peek
  /-- 0x1a, `PICK n`; `n` is the extra word (R107) -/
  | pick (n : Word)
  /-- 0x1b, `SP` (R108) -/
  | sp
  /-- 0x1c, `PC` (R109) -/
  | pc
  /-- 0x1d, `EX` (R110) -/
  | ex
  /-- 0x1e, `[n]`; `n` is the extra word (R111) -/
  | mem (n : Word)
  /-- 0x1f, the next-word literal; `n` is the extra word (R112) -/
  | lit (n : Word)
  /-- 0x20 to 0x3f, the inline literal; `k` is the code's low five bits (R113) -/
  | inline (k : BitVec 5)
  deriving DecidableEq, Repr

/-- One constructor per row of spec/opcode_table.json. A basic instruction is written `MNEMONIC b, a`: destination
first, source second (R83). The last six rows cover the unsupported words (R79, R80); each holds the opcode bits
its row leaves open. -/
inductive Instr where
  | set (b a : Mode)
  | add (b a : Mode)
  | sub (b a : Mode)
  | mul (b a : Mode)
  | mli (b a : Mode)
  | div (b a : Mode)
  | dvi (b a : Mode)
  | mod (b a : Mode)
  | mdi (b a : Mode)
  | and (b a : Mode)
  | bor (b a : Mode)
  | xor (b a : Mode)
  | shr (b a : Mode)
  | asr (b a : Mode)
  | shl (b a : Mode)
  | ifb (b a : Mode)
  | ifc (b a : Mode)
  | ife (b a : Mode)
  | ifn (b a : Mode)
  | ifg (b a : Mode)
  | ifa (b a : Mode)
  | ifl (b a : Mode)
  | ifu (b a : Mode)
  | jsr (a : Mode)
  /-- basic `o` = 0x18 + `k` (R79) -/
  | unsupBasic (k : BitVec 3) (b a : Mode)
  /-- special `s` = 0x00 (R80) -/
  | unsupSpecial00 (a : Mode)
  /-- special `s` = 0x02 + `k` (R80) -/
  | unsupSpecial02 (k : BitVec 1) (a : Mode)
  /-- special `s` = 0x04 + `k` (R80) -/
  | unsupSpecial04 (k : BitVec 2) (a : Mode)
  /-- special `s` = 0x08 + `k` (R80) -/
  | unsupSpecial08 (k : BitVec 3) (a : Mode)
  /-- special `s` = 0x10 + `k` (R80) -/
  | unsupSpecial10 (k : BitVec 4) (a : Mode)
  deriving DecidableEq, Repr

/-- The `b` operand of an instruction: a basic one has it, a special one has none (R71, R72). -/
def Instr.bMode : Instr → Option Mode
  | .set b _ | .add b _ | .sub b _ | .mul b _ | .mli b _ | .div b _ | .dvi b _ | .mod b _ | .mdi b _
  | .and b _ | .bor b _ | .xor b _ | .shr b _ | .asr b _ | .shl b _
  | .ifb b _ | .ifc b _ | .ife b _ | .ifn b _ | .ifg b _ | .ifa b _ | .ifl b _ | .ifu b _
  | .unsupBasic _ b _ => some b
  | .jsr _ | .unsupSpecial00 _ | .unsupSpecial02 _ _ | .unsupSpecial04 _ _ | .unsupSpecial08 _ _
  | .unsupSpecial10 _ _ => none

/-- The `a` operand: every instruction has one (R71, R72). -/
def Instr.aMode : Instr → Mode
  | .set _ a | .add _ a | .sub _ a | .mul _ a | .mli _ a | .div _ a | .dvi _ a | .mod _ a | .mdi _ a
  | .and _ a | .bor _ a | .xor _ a | .shr _ a | .asr _ a | .shl _ a
  | .ifb _ a | .ifc _ a | .ife _ a | .ifn _ a | .ifg _ a | .ifa _ a | .ifl _ a | .ifu _ a
  | .unsupBasic _ _ a
  | .jsr a | .unsupSpecial00 a | .unsupSpecial02 _ a | .unsupSpecial04 _ a | .unsupSpecial08 _ a
  | .unsupSpecial10 _ a => a

end Sys2Proof
end

