-- ==== Sys2Proof/WellFormed.lean ====
section
/-! DEFINITION. Which instructions a word can name: the 5-bit `b` field reaches mode codes 0x00 to 0x1f only
(R76, R121), so an inline literal is never a destination. Nothing else is ill formed (R81). -/

namespace Sys2Proof

/-- The mode can stand in the 5-bit `b` field: it is no inline literal (R76, R113, R121). -/
def Mode.fitsB : Mode → Bool
  | .inline _ => false
  | .reg _ | .ind _ | .idx _ _ | .stack | .peek | .pick _ | .sp | .pc | .ex | .mem _ | .lit _ => true

/-- An instruction some sequence of words encodes. -/
def Instr.wellFormed (i : Instr) : Bool :=
  match i.bMode with
  | some b => b.fitsB
  | none => true

end Sys2Proof
end

