-- ==== Sys2Proof/Decode.lean ====
section
/-! DEFINITION. The decoder, total on any bytes, and after it the encoder, both written from the tables of
spec/30_encoding.md: LAYOUT (R71, R72) in the three field functions and `pack`, OPCODE_MAP (R77, R78) in
`basicOf`, `specialOf` and `Instr.opcode`. -/

namespace Sys2Proof

/-! ### Registers and fields -/

/-- The register an index 0 to 7 names (R20). The index is always a 3-bit field, so 7 is the last case (R21). -/
def Reg.ofIndex : Nat → Reg
  | 0 => .A
  | 1 => .B
  | 2 => .C
  | 3 => .X
  | 4 => .Y
  | 5 => .Z
  | 6 => .I
  | _ => .J

/-- The index of a register (R20). -/
def Reg.index : Reg → Nat
  | .A => 0
  | .B => 1
  | .C => 2
  | .X => 3
  | .Y => 4
  | .Z => 5
  | .I => 6
  | .J => 7

/-- `o = w[4:0]` (R71). -/
def fieldO (w : Word) : BitVec 5 := w.extractLsb' 0 5

/-- `b = w[9:5]` of the basic format, `s = w[9:5]` of the special format (R71, R72). -/
def fieldB (w : Word) : BitVec 5 := w.extractLsb' 5 5

/-- `a = w[15:10]` (R71, R72). -/
def fieldA (w : Word) : BitVec 6 := w.extractLsb' 10 6

/-- `w = (a << 10) | (b << 5) | o` (R71); with `o = 0` and `s` for `b` it packs a special word (R72). -/
def pack (o b : BitVec 5) (a : BitVec 6) : Word := a ++ b ++ o

/-! ### Decoding -/

/-- A mode code consumes an extra word iff it is one of 0x10 to 0x17, 0x1a, 0x1e, 0x1f (R74). -/
def needsExtra (m : BitVec 6) : Bool :=
  let n := m.toNat
  (0x10 ≤ n && n ≤ 0x17) || n == 0x1a || n == 0x1e || n == 0x1f

/-- The mode of a 6-bit code, with the extra word `x` where the code consumes one (R101 to R113). -/
def decodeMode (m : BitVec 6) (x : Word) : Mode :=
  let n := m.toNat
  if n ≤ 0x07 then .reg (Reg.ofIndex n)
  else if n ≤ 0x0f then .ind (Reg.ofIndex (n - 0x08))
  else if n ≤ 0x17 then .idx (Reg.ofIndex (n - 0x10)) x
  else if n = 0x18 then .stack
  else if n = 0x19 then .peek
  else if n = 0x1a then .pick x
  else if n = 0x1b then .sp
  else if n = 0x1c then .pc
  else if n = 0x1d then .ex
  else if n = 0x1e then .mem x
  else if n = 0x1f then .lit x
  else .inline (BitVec.ofNat 5 (n - 0x20))

/-- OPCODE_MAP, basic part: the instruction of a basic opcode, 0x01 to 0x1f (R77, R79). The opcode 0 is the
special-format marker and never reaches this function from `decodeWords` (R70). -/
def basicOf (o : BitVec 5) (b a : Mode) : Instr :=
  match o.toNat with
  | 0x01 => .set b a
  | 0x02 => .add b a
  | 0x03 => .sub b a
  | 0x04 => .mul b a
  | 0x05 => .mli b a
  | 0x06 => .div b a
  | 0x07 => .dvi b a
  | 0x08 => .mod b a
  | 0x09 => .mdi b a
  | 0x0a => .and b a
  | 0x0b => .bor b a
  | 0x0c => .xor b a
  | 0x0d => .shr b a
  | 0x0e => .asr b a
  | 0x0f => .shl b a
  | 0x10 => .ifb b a
  | 0x11 => .ifc b a
  | 0x12 => .ife b a
  | 0x13 => .ifn b a
  | 0x14 => .ifg b a
  | 0x15 => .ifa b a
  | 0x16 => .ifl b a
  | 0x17 => .ifu b a
  | n => .unsupBasic (BitVec.ofNat 3 (n - 0x18)) b a

/-- OPCODE_MAP, special part: the instruction of a special opcode, 0x00 to 0x1f (R78, R80). -/
def specialOf (s : BitVec 5) (a : Mode) : Instr :=
  let n := s.toNat
  if n = 0x00 then .unsupSpecial00 a
  else if n = 0x01 then .jsr a
  else if n ≤ 0x03 then .unsupSpecial02 (BitVec.ofNat 1 (n - 0x02)) a
  else if n ≤ 0x07 then .unsupSpecial04 (BitVec.ofNat 2 (n - 0x04)) a
  else if n ≤ 0x0f then .unsupSpecial08 (BitVec.ofNat 3 (n - 0x08)) a
  else .unsupSpecial10 (BitVec.ofNat 4 (n - 0x10)) a

/-- The instruction whose first word is `w`, followed in memory by the words `x1` and `x2` (R70 to R74, R133). The
`b` operand takes its extra word first (R74); a following word no mode needs is not looked at. -/
def decodeWords (w x1 x2 : Word) : Instr :=
  let am := fieldA w
  if fieldO w = 0 then specialOf (fieldB w) (decodeMode am x1)
  else
    let bm := (fieldB w).setWidth 6
    basicOf (fieldO w) (decodeMode bm x1) (decodeMode am (if needsExtra bm then x2 else x1))

/-- `nw(b) + nw(a)` of a first word (R75): how many extra words follow it. -/
def extraCount (w : Word) : Nat :=
  (if fieldO w ≠ 0 ∧ needsExtra ((fieldB w).setWidth 6) then 1 else 0) +
    (if needsExtra (fieldA w) then 1 else 0)

/-- Why a byte list holds no whole instruction. Every first word decodes (R73), so only its end can be wanting. -/
inductive DecodeError where
  /-- fewer than the two bytes of a first word -/
  | noFirstWord
  /-- the list ends inside an extra word that the first word asks for -/
  | missingExtraWord
  deriving DecidableEq, Repr

/-- The word at the head of a byte list, high byte first (log entry 1). -/
def takeWord : List Byte → Option (Word × List Byte)
  | hi :: lo :: rest => some (hi ++ lo, rest)
  | [_] | [] => none

/-- The decoder on bytes: the instruction at the head of the list and what follows it. -/
def decode (bs : List Byte) : Except DecodeError (Instr × List Byte) :=
  match takeWord bs with
  | none => .error .noFirstWord
  | some (w, r0) =>
    match extraCount w with
    | 0 => .ok (decodeWords w 0 0, r0)
    | 1 =>
      match takeWord r0 with
      | none => .error .missingExtraWord
      | some (x1, r1) => .ok (decodeWords w x1 0, r1)
    | _ =>
      match takeWord r0 with
      | none => .error .missingExtraWord
      | some (x1, r1) =>
        match takeWord r1 with
        | none => .error .missingExtraWord
        | some (x2, r2) => .ok (decodeWords w x1 x2, r2)

/-! ### Encoding -/

/-- The 6-bit code of a mode (R101 to R113). -/
def Mode.code : Mode → BitVec 6
  | .reg r => BitVec.ofNat 6 r.index
  | .ind r => BitVec.ofNat 6 (0x08 + r.index)
  | .idx r _ => BitVec.ofNat 6 (0x10 + r.index)
  | .stack => 0x18
  | .peek => 0x19
  | .pick _ => 0x1a
  | .sp => 0x1b
  | .pc => 0x1c
  | .ex => 0x1d
  | .mem _ => 0x1e
  | .lit _ => 0x1f
  | .inline k => BitVec.ofNat 6 (0x20 + k.toNat)

/-- The extra words of a mode: one or none (R74). -/
def Mode.extra : Mode → List Word
  | .idx _ n | .pick n | .mem n | .lit n => [n]
  | .reg _ | .ind _ | .stack | .peek | .sp | .pc | .ex | .inline _ => []

/-- OPCODE_MAP read the other way: the fields `o` and, for a special instruction, `s` (R77 to R80). -/
def Instr.opcode : Instr → BitVec 5 × Option (BitVec 5)
  | .set _ _ => (0x01, none)
  | .add _ _ => (0x02, none)
  | .sub _ _ => (0x03, none)
  | .mul _ _ => (0x04, none)
  | .mli _ _ => (0x05, none)
  | .div _ _ => (0x06, none)
  | .dvi _ _ => (0x07, none)
  | .mod _ _ => (0x08, none)
  | .mdi _ _ => (0x09, none)
  | .and _ _ => (0x0a, none)
  | .bor _ _ => (0x0b, none)
  | .xor _ _ => (0x0c, none)
  | .shr _ _ => (0x0d, none)
  | .asr _ _ => (0x0e, none)
  | .shl _ _ => (0x0f, none)
  | .ifb _ _ => (0x10, none)
  | .ifc _ _ => (0x11, none)
  | .ife _ _ => (0x12, none)
  | .ifn _ _ => (0x13, none)
  | .ifg _ _ => (0x14, none)
  | .ifa _ _ => (0x15, none)
  | .ifl _ _ => (0x16, none)
  | .ifu _ _ => (0x17, none)
  | .unsupBasic k _ _ => (BitVec.ofNat 5 (0x18 + k.toNat), none)
  | .unsupSpecial00 _ => (0, some 0x00)
  | .jsr _ => (0, some 0x01)
  | .unsupSpecial02 k _ => (0, some (BitVec.ofNat 5 (0x02 + k.toNat)))
  | .unsupSpecial04 k _ => (0, some (BitVec.ofNat 5 (0x04 + k.toNat)))
  | .unsupSpecial08 k _ => (0, some (BitVec.ofNat 5 (0x08 + k.toNat)))
  | .unsupSpecial10 k _ => (0, some (BitVec.ofNat 5 (0x10 + k.toNat)))

/-- The extra words of the `b` operand (R74). -/
def Instr.bExtra (i : Instr) : List Word :=
  match i.bMode with
  | some b => b.extra
  | none => []

/-- The middle field of the first word: the low five bits of `b`'s code, or the special opcode (R71, R72). -/
def Instr.middle (i : Instr) : BitVec 5 :=
  match i.opcode.2, i.bMode with
  | some s, _ => s
  | none, some b => b.code.setWidth 5
  | none, none => 0

/-- The first word of an instruction (R71, R72). -/
def Instr.firstWord (i : Instr) : Word := pack i.opcode.1 i.middle i.aMode.code

/-- The words of a well-formed instruction: the first word, `b`'s extra word, `a`'s extra word (R74). -/
def encode (i : Instr) : List Word := i.firstWord :: (i.bExtra ++ i.aMode.extra)

/-- The length of an instruction in words, `1 + nw(b) + nw(a)` (R75). -/
def Instr.length (i : Instr) : Nat := (encode i).length

/-- Words as bytes, the high byte of each first (log entry 1). -/
def bytesOf : List Word → List Byte
  | [] => []
  | w :: ws => w.extractLsb' 8 8 :: w.extractLsb' 0 8 :: bytesOf ws

/-- The bytes of a well-formed instruction. -/
def encodeBytes (i : Instr) : List Byte := bytesOf (encode i)

/-! ### The opcode table -/

/-- A row of spec/opcode_table.json: a first word `w` belongs to it iff `w & mask = pattern`. -/
structure Row where
  mnemonic : String
  pattern : Word
  mask : Word
  deriving DecidableEq, Repr

/-- The row an instruction belongs to, as spec/opcode_table.json gives it. -/
def Instr.row : Instr → Row
  | .set _ _ => ⟨"SET", 0x0001, 0x001F⟩
  | .add _ _ => ⟨"ADD", 0x0002, 0x001F⟩
  | .sub _ _ => ⟨"SUB", 0x0003, 0x001F⟩
  | .mul _ _ => ⟨"MUL", 0x0004, 0x001F⟩
  | .mli _ _ => ⟨"MLI", 0x0005, 0x001F⟩
  | .div _ _ => ⟨"DIV", 0x0006, 0x001F⟩
  | .dvi _ _ => ⟨"DVI", 0x0007, 0x001F⟩
  | .mod _ _ => ⟨"MOD", 0x0008, 0x001F⟩
  | .mdi _ _ => ⟨"MDI", 0x0009, 0x001F⟩
  | .and _ _ => ⟨"AND", 0x000A, 0x001F⟩
  | .bor _ _ => ⟨"BOR", 0x000B, 0x001F⟩
  | .xor _ _ => ⟨"XOR", 0x000C, 0x001F⟩
  | .shr _ _ => ⟨"SHR", 0x000D, 0x001F⟩
  | .asr _ _ => ⟨"ASR", 0x000E, 0x001F⟩
  | .shl _ _ => ⟨"SHL", 0x000F, 0x001F⟩
  | .ifb _ _ => ⟨"IFB", 0x0010, 0x001F⟩
  | .ifc _ _ => ⟨"IFC", 0x0011, 0x001F⟩
  | .ife _ _ => ⟨"IFE", 0x0012, 0x001F⟩
  | .ifn _ _ => ⟨"IFN", 0x0013, 0x001F⟩
  | .ifg _ _ => ⟨"IFG", 0x0014, 0x001F⟩
  | .ifa _ _ => ⟨"IFA", 0x0015, 0x001F⟩
  | .ifl _ _ => ⟨"IFL", 0x0016, 0x001F⟩
  | .ifu _ _ => ⟨"IFU", 0x0017, 0x001F⟩
  | .jsr _ => ⟨"JSR", 0x0020, 0x03FF⟩
  | .unsupBasic _ _ _ => ⟨"unsupported_basic_0x18-0x1f", 0x0018, 0x0018⟩
  | .unsupSpecial00 _ => ⟨"unsupported_special_0x00", 0x0000, 0x03FF⟩
  | .unsupSpecial02 _ _ => ⟨"unsupported_special_0x02-0x03", 0x0040, 0x03DF⟩
  | .unsupSpecial04 _ _ => ⟨"unsupported_special_0x04-0x07", 0x0080, 0x039F⟩
  | .unsupSpecial08 _ _ => ⟨"unsupported_special_0x08-0x0f", 0x0100, 0x031F⟩
  | .unsupSpecial10 _ _ => ⟨"unsupported_special_0x10-0x1f", 0x0200, 0x021F⟩

/-- A first word belongs to a row. -/
def Row.covers (r : Row) (w : Word) : Prop := w &&& r.mask = r.pattern

/-! ### The host's question -/

/-- The words of a table word: bits 15..0 first, bits 31..16 next, bits 47..32 last, zero above `nbits`. -/
def tableWords (nbits w : Nat) : List Word :=
  let v := w % 2 ^ nbits
  [BitVec.ofNat 16 v, BitVec.ofNat 16 (v / 2 ^ 16), BitVec.ofNat 16 (v / 2 ^ 32)]

/-- The instruction the decoder reads from a table word laid out as memory holds it. -/
def decodeTableWord (nbits w : Nat) : Option Instr :=
  match decode (bytesOf (tableWords nbits w)) with
  | .ok (i, _) => some i
  | .error _ => none

end Sys2Proof
end

