-- ==== Sys2Proof/Machine/Params.lean ====
section
/-! DEFINITION. The decided parameters of rule R7 (spec/00_scope.md) and the reset values of rule R36
(spec/10_state.md), each with the value the rules give it. -/

namespace Sys2Proof.Machine

/-- START: the address `pc` takes at reset, where the host names none (R7, R36; log entry 4). -/
def Params.start : Word := 0x0000

/-- The byte of a memory word the image does not cover: both halves of FILL = 0x0000 (R7, R36; log entry 2). -/
def Params.fillByte : Byte := 0x00

/-- `x[0]` to `x[7]` after reset (R36; log entry 3). -/
def Params.resetX : Word := 0x0000

/-- `sp` after reset (R36; log entry 3). -/
def Params.resetSp : Word := 0xFFFF

/-- `ex` after reset (R36; log entry 3). -/
def Params.resetEx : Word := 0x0000

/-- LITERAL_BIAS: the number subtracted from an inline literal's mode code (R7, R113; log entry 8). -/
def Params.literalBias : Nat := 0x20

/-- SDIV_ROUND: the rounding of `DVI` and `MDI` (R7, R157, R159; log entry 6). -/
def Params.sdivRound : SDivRound := .trunc

end Sys2Proof.Machine
end

