-- ==== Sys2Proof/Machine/State.lean ====
section
/-! DEFINITION. The state of the machine as plain data, all that rules R20 to R36 (spec/10_state.md) give it, the
faults and refusals, and the state after reset. -/

namespace Sys2Proof.Machine

/-- The register file (R20). -/
structure Regs where
  A : Word
  B : Word
  C : Word
  X : Word
  Y : Word
  Z : Word
  I : Word
  J : Word
  deriving DecidableEq, Repr

/-- What halted the core (R32, R210). -/
inductive HaltCause where
  /-- fatal: a word with no semantics was dispatched; `addr` is the address of its first word (R211) -/
  | unsupportedInstruction (addr : Word)
  /-- fatal: an executing `JSR` whose body starts with `sp = 0` (R212) -/
  | stackOverflow
  /-- no error: LIMIT instructions have been dispatched (R213) -/
  | budgetExhausted
  deriving DecidableEq, Repr

/-- The run status (R32). -/
inductive Status where
  | running
  | halted (cause : HaltCause)
  deriving DecidableEq, Repr

/-- The 65,536 words of memory (R34), listed as pairs of a byte address and a byte in the canonical form of
`Memory.wf` (Ops.lean). Word `a` is the bytes `2a` (high) and `2a + 1` (low), the order of the raw image (R54, R241;
log entry 1). -/
abbrev Memory := List Host.Cell

/-- The whole state (R35). `limit` alone is the model's own field: the LIMIT of the run in progress (log entry 5). -/
structure State where
  /-- the general registers (R20) -/
  regs : Regs
  /-- the program counter (R22) -/
  pc : Word
  /-- the stack pointer (R25) -/
  sp : Word
  /-- the overflow/extend register (R27) -/
  ex : Word
  /-- the document's `pending_skip` (R29) -/
  skip : Bool
  /-- the run status (R32) -/
  status : Status
  /-- dispatched instructions since reset (R33) -/
  icount : Nat
  /-- the host's LIMIT, absent for an unbounded run (R7, R131) -/
  limit : Option Nat
  /-- the memory (R34) -/
  mem : Memory
  deriving DecidableEq, Repr

/-- What stops a step. -/
inductive Fault where
  /-- Raised by `step` alone, on a state whose status is `halted`: no step is defined there until the host resets
  (R130, R218). Safe: no claim about a further state can be proved (log entry 9). -/
  | coreHalted (cause : HaltCause)
  deriving DecidableEq, Repr

/-- Why an instruction has no meaning. -/
inductive Refusal where
  /-- Raised by an arm of `exec` whose instruction has no meaning yet; no arm of this model raises it. Safe. -/
  | notModelled (mnemonic : String)
  deriving DecidableEq, Repr

/-- The state after `Reset(START, IMAGE)` with the default START and the empty image, before any `Run` (R36, R242;
log entries 3, 4 and 5). Reset with any START and IMAGE is `hostReset` (HostOps.lean). -/
def State.reset : State where
  regs := ⟨Params.resetX, Params.resetX, Params.resetX, Params.resetX,
    Params.resetX, Params.resetX, Params.resetX, Params.resetX⟩
  pc := Params.start
  sp := Params.resetSp
  ex := Params.resetEx
  skip := false
  status := .running
  icount := 0
  limit := none
  mem := []

end Sys2Proof.Machine
end

