-- ==== Sys2Proof/Machine/Ops.lean ====
section
/-! DEFINITION. The named operations over memory and registers, the fetch, and the entry of a fatal condition. -/

namespace Sys2Proof.Machine

/-! ### Memory, byte by byte, and the canonical form -/

/-- The number of byte cells: two for each of the 65,536 words (R34; log entry 1). -/
def Memory.size : Nat := 2 * Config.memWords

/-- The byte at a byte address; an unlisted address reads as FILL's byte (R36). -/
def Memory.readByte : Memory → Nat → Byte
  | [], _ => Params.fillByte
  | (j, v) :: rest, k => if j = k then v else readByte rest k

/-- The list without its entries at `k`. -/
def Memory.erase : Memory → Nat → Memory
  | [], _ => []
  | (j, v) :: rest, k => if j = k then erase rest k else (j, v) :: erase rest k

/-- The list with `(k, v)` before the first entry at a higher address. -/
def Memory.insert : Memory → Nat → Byte → Memory
  | [], k, v => [(k, v)]
  | (j, u) :: rest, k, v => if k < j then (k, v) :: (j, u) :: rest else (j, u) :: insert rest k v

/-- Writing a byte keeps the canonical form: the value an unlisted address reads as is not listed. -/
def Memory.writeByte (m : Memory) (k : Nat) (v : Byte) : Memory :=
  if v = Params.fillByte then m.erase k else (m.erase k).insert k v

/-- Every entry from `lo` on: addresses strictly rising and below the size, no byte equal to FILL's. -/
def Memory.wfFrom : Nat → Memory → Bool
  | _, [] => true
  | lo, (k, v) :: rest =>
    decide (lo ≤ k) && decide (k < Memory.size) && decide (v ≠ Params.fillByte) && wfFrom (k + 1) rest

/-- The canonical form, in which equal memories are equal lists. -/
def Memory.wf (m : Memory) : Bool := Memory.wfFrom 0 m

/-! ### Memory, word by word -/

/-- The byte address of a word's high byte; its low byte is the next (log entry 1). -/
def byteAddr (a : Word) : Nat := 2 * a.toNat

/-- `MemRead(a, 1)`: the word at a word address (R9, R51, R53). -/
def Memory.read (m : Memory) (a : Word) : Word :=
  m.readByte (byteAddr a) ++ m.readByte (byteAddr a + 1)

/-- `MemWrite(a, 1, v)` (R9, R51, R53). -/
def Memory.write (m : Memory) (a v : Word) : Memory :=
  (m.writeByte (byteAddr a) (v.extractLsb' 8 8)).writeByte (byteAddr a + 1) (v.extractLsb' 0 8)

/-- The words of a list at `a`, `a + 1`, ... (R241). -/
def Memory.load : Memory → Word → List Word → Memory
  | m, _, [] => m
  | m, a, w :: ws => load (m.write a w) (a + 1) ws

/-! ### Registers -/

/-- Reads `x[r]` (R9, R20). -/
def Regs.get (x : Regs) : Reg → Word
  | .A => x.A
  | .B => x.B
  | .C => x.C
  | .X => x.X
  | .Y => x.Y
  | .Z => x.Z
  | .I => x.I
  | .J => x.J

/-- Writes `x[r]` (R9, R20). -/
def Regs.set (x : Regs) (r : Reg) (v : Word) : Regs :=
  match r with
  | .A => { x with A := v }
  | .B => { x with B := v }
  | .C => { x with C := v }
  | .X => { x with X := v }
  | .Y => { x with Y := v }
  | .Z => { x with Z := v }
  | .I => { x with I := v }
  | .J => { x with J := v }

/-- `x[r]` of a state. -/
def State.x (s : State) (r : Reg) : Word := s.regs.get r

/-- `x[r] <- v`. -/
def State.setX (s : State) (r : Reg) (v : Word) : State := { s with regs := s.regs.set r v }

/-- `sp <- v`. -/
def State.setSp (s : State) (v : Word) : State := { s with sp := v }

/-- `pc <- v`. -/
def State.setPc (s : State) (v : Word) : State := { s with pc := v }

/-- `ex <- v`. -/
def State.setEx (s : State) (v : Word) : State := { s with ex := v }

/-- `skip <- v`. -/
def State.setSkip (s : State) (v : Bool) : State := { s with skip := v }

/-- `status <- v`. -/
def State.setStatus (s : State) (v : Status) : State := { s with status := v }

/-- The word of memory at `a`. -/
def State.memRead (s : State) (a : Word) : Word := s.mem.read a

/-- The word of memory at `a` becomes `v`. -/
def State.memWrite (s : State) (a v : Word) : State := { s with mem := s.mem.write a v }

/-! ### Fetch -/

/-- Past one word of the instruction: `pc <- u16(pc + 1)` (R23, R114, R132). -/
def State.advance (s : State) : State := { s with pc := s.pc + 1 }

/-- Past the first word: `pc` advances and the dispatch is counted (R132, R142). -/
def State.fetched (s : State) : State := { s.advance with icount := s.icount + 1 }

/-! ### The fatal conditions and the halt -/

/-- `raise C(info)`: `status <- Halted(C(info))` and nothing else. No handler, no vector, nothing saved (R216). There
is no return from it: the only way out is the host's reset (R218). -/
def raise (c : HaltCause) (s : State) : State := s.setStatus (.halted c)

end Sys2Proof.Machine
end

