-- ==== Sys2Proof/Machine/Operands.lean ====
section
/-! DEFINITION. The operand resolver (spec/40_operand_resolver.md), `Read` and `Write`, and the dispatch that every
instruction runs inside (spec/41_dispatch.md R130, R134 to R136). -/

namespace Sys2Proof.Machine

/-- A resolved operand (R10). -/
inductive Operand where
  /-- general register `r` -/
  | reg (r : Reg)
  /-- the stack pointer itself -/
  | sp
  /-- the program counter itself -/
  | pc
  /-- the `ex` register itself -/
  | ex
  /-- the memory word at an address fixed at resolution -/
  | mem (addr : Word)
  /-- a read-only value -/
  | lit (v : Word)
  deriving DecidableEq, Repr

/-- The value of an inline literal: its mode code `0x20 + k` less LITERAL_BIAS (R113). -/
def inlineValue (k : BitVec 5) : Word := u16 ((0x20 + k.toNat : Nat) - (Params.literalBias : Nat))

/-- `Resolve(m, hint)`: the operand, and the state after the mode's side effects on `pc` and `sp` (R100 to R113). The
extra word is the one the mode carries; consuming it moves `pc` past it (R114; log entry 10). -/
def resolve (h : Hint) (m : Mode) (s : State) : Operand × State :=
  match m with
  | .reg r => (.reg r, s)
  | .ind r => (.mem (s.x r), s)
  | .idx r n => (.mem (s.x r + n), s.advance)
  | .stack =>
    match h with
    | .a => (.mem s.sp, s.setSp (s.sp + 1))
    | .b => (.mem (s.sp - 1), s.setSp (s.sp - 1))
  | .peek => (.mem s.sp, s)
  | .pick n => (.mem (s.sp + n), s.advance)
  | .sp => (.sp, s)
  | .pc => (.pc, s)
  | .ex => (.ex, s)
  | .mem n => (.mem n, s.advance)
  | .lit n => (.lit n, s.advance)
  | .inline k => (.lit (inlineValue k), s)

/-- `Read(o)` (R118). -/
def readOp (o : Operand) (s : State) : Word :=
  match o with
  | .reg r => s.x r
  | .sp => s.sp
  | .pc => s.pc
  | .ex => s.ex
  | .mem addr => s.memRead addr
  | .lit v => v

/-- `Write(o, v)`; a write to a read-only operand does nothing (R119). -/
def writeOp (o : Operand) (v : Word) (s : State) : State :=
  match o with
  | .reg r => s.setX r v
  | .sp => s.setSp v
  | .pc => s.setPc v
  | .ex => s.setEx v
  | .mem addr => s.memWrite addr v
  | .lit _ => s

/-- The address of the memory word an operand names. -/
def Operand.memAddr : Operand → Option Word
  | .mem addr => some addr
  | .reg _ | .sp | .pc | .ex | .lit _ => none

/-- Both operands of a basic instruction, `b` first with hint b, then `a` with hint a (R115, R135). -/
structure Resolved where
  b : Operand
  a : Operand
  /-- the state after both resolutions -/
  st : State
  deriving DecidableEq, Repr

/-- The operands of a basic instruction whose first word has been fetched (R115). -/
def resolveBoth (b a : Mode) (s : State) : Resolved :=
  let rb := resolve .b b s
  let ra := resolve .a a rb.2
  ⟨rb.1, ra.1, ra.2⟩

/-- One dispatch of a basic instruction that stands at `pc` of `s`: fetch, resolve `b` then `a`, then skip or run the
body (R130, R135, R136). -/
def dispatchBasic (body : Operand → Operand → State → State) (b a : Mode) (s : State) :
    Host.Outcome State Fault Refusal :=
  let r := resolveBoth b a s.fetched
  if r.st.skip then .next (r.st.setSkip false) else .next (body r.b r.a r.st)

/-- One dispatch of a special instruction: its single operand is resolved with hint a (R130, R134, R136). -/
def dispatchSpecial (body : Operand → State → State) (a : Mode) (s : State) :
    Host.Outcome State Fault Refusal :=
  let r := resolve .a a s.fetched
  if r.2.skip then .next (r.2.setSkip false) else .next (body r.1 r.2)

end Sys2Proof.Machine
end

