-- ==== Sys2Proof/Machine/CallStack.lean ====
section
/-! DEFINITION. The subroutine call (spec/45_call_stack.md): JSR. Returns and jumps are basic instructions whose destination is
`PC` (R205, R206) and need nothing of their own. -/

namespace Sys2Proof.Machine

/-- `ExecJSR(a)`: test `sp`, decrement it, push the address after the `JSR`, and only then read the operand and jump
(R200 to R203). -/
def bodyJsr (a : Operand) (s : State) : State :=
  if s.sp = 0x0000 then raise .stackOverflow s
  else
    let s1 := s.setSp (s.sp - 1)
    let s2 := s1.memWrite s1.sp s1.pc
    s2.setPc (readOp a s2)

/-- `JSR a` (R200). -/
def execJsr (a : Mode) (s : State) : Host.Outcome State Fault Refusal := dispatchSpecial bodyJsr a s

end Sys2Proof.Machine
end

