-- ==== Sys2Proof/Machine/Flags.lean ====
section
/-! DEFINITION. What the arithmetic, bitwise and shift instructions compute from `bv` and `av`, with the value of `ex`
where the rule gives one, and the predicates of the IF family. `ex` is the only arithmetic status there is (R27).
The formulas are those of the rules, over exact integers, with `u16` at the end (R160). -/

namespace Sys2Proof.Machine

/-- A result and the `ex` reported beside it. -/
structure AluResult where
  value : Word
  ex : Word
  deriving DecidableEq, Repr

/-- `ADD` (R152). -/
def aluAdd (bv av : Word) : AluResult :=
  let sum := uint bv + uint av
  ⟨u16 sum, if sum > 0xFFFF then 0x0001 else 0x0000⟩

/-- `SUB` (R153). -/
def aluSub (bv av : Word) : AluResult :=
  let diff := uint bv - uint av
  ⟨u16 diff, if diff < 0 then 0xFFFF else 0x0000⟩

/-- `MUL` (R154). -/
def aluMul (bv av : Word) : AluResult :=
  let p := uint bv * uint av
  ⟨u16 p, u16 (p >>> (16 : Nat))⟩

/-- `MLI` (R155). -/
def aluMli (bv av : Word) : AluResult :=
  let p := s16 bv * s16 av
  ⟨u16 p, u16 (p >>> (16 : Nat))⟩

/-- `DIV` (R156); both operands are non-negative, so `/` is the floor. -/
def aluDiv (bv av : Word) : AluResult :=
  if av = 0 then ⟨0, 0⟩
  else ⟨u16 (uint bv / uint av), u16 (uint bv * 65536 / uint av)⟩

/-- The quotient of two integers under SDIV_ROUND (R8, R157). -/
def roundDiv (r : SDivRound) (p q : Int) : Int :=
  match r with
  | .trunc => p.tdiv q
  | .floor => p.fdiv q

/-- `DVI` (R157). -/
def aluDvi (r : SDivRound) (bv av : Word) : AluResult :=
  if s16 av = 0 then ⟨0, 0⟩
  else ⟨u16 (roundDiv r (s16 bv) (s16 av)), u16 (roundDiv r (s16 bv * 65536) (s16 av))⟩

/-- `MOD` (R158). -/
def aluMod (bv av : Word) : Word :=
  if av = 0 then 0 else u16 (uint bv - uint av * (uint bv / uint av))

/-- `MDI` (R159). -/
def aluMdi (r : SDivRound) (bv av : Word) : Word :=
  if s16 av = 0 then 0 else u16 (s16 bv - s16 av * roundDiv r (s16 bv) (s16 av))

/-- `AND` (R171). -/
def aluAnd (bv av : Word) : Word := bv &&& av

/-- `BOR` (R172). -/
def aluBor (bv av : Word) : Word := bv ||| av

/-- `XOR` (R173). -/
def aluXor (bv av : Word) : Word := bv ^^^ av

/-- `SHR` (R174); the whole unsigned `av` is the amount (R170). -/
def aluShr (bv av : Word) : AluResult :=
  ⟨u16 (uint bv >>> av.toNat), u16 ((uint bv * 65536) >>> av.toNat)⟩

/-- `ASR` (R175): `>>>` on a negative integer is the floor of the division by `2^av` (R8). -/
def aluAsr (bv av : Word) : AluResult :=
  ⟨u16 (s16 bv >>> av.toNat), u16 ((s16 bv * 65536) >>> av.toNat)⟩

/-- `SHL` (R176), over the unbounded naturals. -/
def aluShl (bv av : Word) : AluResult :=
  ⟨u16 ((bv.toNat <<< av.toNat : Nat) : Int), u16 (((bv.toNat <<< av.toNat : Nat) : Int) >>> (16 : Nat))⟩

/-- `IFB`: a set bit in common (R181). -/
def predIfb (bv av : Word) : Bool := decide (bv &&& av ≠ 0)

/-- `IFC`: no set bit in common (R182). -/
def predIfc (bv av : Word) : Bool := decide (bv &&& av = 0)

/-- `IFE` (R183). -/
def predIfe (bv av : Word) : Bool := decide (bv = av)

/-- `IFN` (R184). -/
def predIfn (bv av : Word) : Bool := decide (bv ≠ av)

/-- `IFG`: unsigned greater than (R185). -/
def predIfg (bv av : Word) : Bool := decide (uint bv > uint av)

/-- `IFA`: signed greater than (R186). -/
def predIfa (bv av : Word) : Bool := decide (s16 bv > s16 av)

/-- `IFL`: unsigned less than (R187). -/
def predIfl (bv av : Word) : Bool := decide (uint bv < uint av)

/-- `IFU`: signed less than (R188). -/
def predIfu (bv av : Word) : Bool := decide (s16 bv < s16 av)

end Sys2Proof.Machine
end

