-- ==== Sys2Proof/Machine/Bodies.lean ====
section
/-! DEFINITION. The three body shapes of the basic instructions, in the order of effects of rule R138: read `b`, read
`a`, compute, write `ex`, write the destination, write `skip`. -/

namespace Sys2Proof.Machine

/-- Reads both operands, writes the destination, leaves `ex` alone (R138, R139). -/
def writeBody (f : Word → Word → Word) (b a : Operand) (s : State) : State :=
  writeOp b (f (readOp b s) (readOp a s)) s

/-- Reads both operands, writes `ex`, then the destination, so that with `b = EX` the destination write wins (R138). -/
def writeExBody (f : Word → Word → AluResult) (b a : Operand) (s : State) : State :=
  let res := f (readOp b s) (readOp a s)
  writeOp b res.value (s.setEx res.ex)

/-- `ExecIF[P](b, a)`: sets `skip` when the predicate is false and writes nothing else (R180). -/
def condBody (p : Word → Word → Bool) (b a : Operand) (s : State) : State :=
  if p (readOp b s) (readOp a s) then s else s.setSkip true

end Sys2Proof.Machine
end

