-- ==== Sys2Proof/Machine/Conditional.lean ====
section
/-! DEFINITION. The conditional-skip instructions (spec/44_conditional.md): IFB IFC IFE IFN IFG IFA IFL IFU. -/

namespace Sys2Proof.Machine

/-- `ExecIFB(b, a)` (R181). -/
def bodyIfb (b a : Operand) (s : State) : State := condBody predIfb b a s

/-- `IFB b, a` (R181). -/
def execIfb (b a : Mode) (s : State) : Host.Outcome State Fault Refusal := dispatchBasic bodyIfb b a s

/-- `ExecIFC(b, a)` (R182). -/
def bodyIfc (b a : Operand) (s : State) : State := condBody predIfc b a s

/-- `IFC b, a` (R182). -/
def execIfc (b a : Mode) (s : State) : Host.Outcome State Fault Refusal := dispatchBasic bodyIfc b a s

/-- `ExecIFE(b, a)` (R183). -/
def bodyIfe (b a : Operand) (s : State) : State := condBody predIfe b a s

/-- `IFE b, a` (R183). -/
def execIfe (b a : Mode) (s : State) : Host.Outcome State Fault Refusal := dispatchBasic bodyIfe b a s

/-- `ExecIFN(b, a)` (R184). -/
def bodyIfn (b a : Operand) (s : State) : State := condBody predIfn b a s

/-- `IFN b, a` (R184). -/
def execIfn (b a : Mode) (s : State) : Host.Outcome State Fault Refusal := dispatchBasic bodyIfn b a s

/-- `ExecIFG(b, a)` (R185). -/
def bodyIfg (b a : Operand) (s : State) : State := condBody predIfg b a s

/-- `IFG b, a` (R185). -/
def execIfg (b a : Mode) (s : State) : Host.Outcome State Fault Refusal := dispatchBasic bodyIfg b a s

/-- `ExecIFA(b, a)` (R186). -/
def bodyIfa (b a : Operand) (s : State) : State := condBody predIfa b a s

/-- `IFA b, a` (R186). -/
def execIfa (b a : Mode) (s : State) : Host.Outcome State Fault Refusal := dispatchBasic bodyIfa b a s

/-- `ExecIFL(b, a)` (R187). -/
def bodyIfl (b a : Operand) (s : State) : State := condBody predIfl b a s

/-- `IFL b, a` (R187). -/
def execIfl (b a : Mode) (s : State) : Host.Outcome State Fault Refusal := dispatchBasic bodyIfl b a s

/-- `ExecIFU(b, a)` (R188). -/
def bodyIfu (b a : Operand) (s : State) : State := condBody predIfu b a s

/-- `IFU b, a` (R188). -/
def execIfu (b a : Mode) (s : State) : Host.Outcome State Fault Refusal := dispatchBasic bodyIfu b a s

end Sys2Proof.Machine
end

