-- ==== Sys2Proof/Machine/LogicShift.lean ====
section
/-! DEFINITION. Bitwise and shift instructions (spec/43_logic_shift.md): AND BOR XOR SHR ASR SHL. -/

namespace Sys2Proof.Machine

/-- `ExecAND(b, a)` (R171). -/
def bodyAnd (b a : Operand) (s : State) : State := writeBody aluAnd b a s

/-- `AND b, a` (R171). -/
def execAnd (b a : Mode) (s : State) : Host.Outcome State Fault Refusal := dispatchBasic bodyAnd b a s

/-- `ExecBOR(b, a)` (R172). -/
def bodyBor (b a : Operand) (s : State) : State := writeBody aluBor b a s

/-- `BOR b, a` (R172). -/
def execBor (b a : Mode) (s : State) : Host.Outcome State Fault Refusal := dispatchBasic bodyBor b a s

/-- `ExecXOR(b, a)` (R173). -/
def bodyXor (b a : Operand) (s : State) : State := writeBody aluXor b a s

/-- `XOR b, a` (R173). -/
def execXor (b a : Mode) (s : State) : Host.Outcome State Fault Refusal := dispatchBasic bodyXor b a s

/-- `ExecSHR(b, a)` (R174). -/
def bodyShr (b a : Operand) (s : State) : State := writeExBody aluShr b a s

/-- `SHR b, a` (R174). -/
def execShr (b a : Mode) (s : State) : Host.Outcome State Fault Refusal := dispatchBasic bodyShr b a s

/-- `ExecASR(b, a)` (R175). -/
def bodyAsr (b a : Operand) (s : State) : State := writeExBody aluAsr b a s

/-- `ASR b, a` (R175). -/
def execAsr (b a : Mode) (s : State) : Host.Outcome State Fault Refusal := dispatchBasic bodyAsr b a s

/-- `ExecSHL(b, a)` (R176). -/
def bodyShl (b a : Operand) (s : State) : State := writeExBody aluShl b a s

/-- `SHL b, a` (R176). -/
def execShl (b a : Mode) (s : State) : Host.Outcome State Fault Refusal := dispatchBasic bodyShl b a s

end Sys2Proof.Machine
end

