-- ==== Sys2Proof/Machine/MoveArith.lean ====
section
/-! DEFINITION. Move and integer arithmetic (spec/42_move_arith.md): SET ADD SUB MUL MLI DIV DVI MOD MDI. -/

namespace Sys2Proof.Machine

/-- `ExecSET(b, a)`: `b` is not read (R151). -/
def bodySet (b a : Operand) (s : State) : State := writeOp b (readOp a s) s

/-- `SET b, a` (R151). -/
def execSet (b a : Mode) (s : State) : Host.Outcome State Fault Refusal := dispatchBasic bodySet b a s

/-- `ExecADD(b, a)` (R152). -/
def bodyAdd (b a : Operand) (s : State) : State := writeExBody aluAdd b a s

/-- `ADD b, a` (R152). -/
def execAdd (b a : Mode) (s : State) : Host.Outcome State Fault Refusal := dispatchBasic bodyAdd b a s

/-- `ExecSUB(b, a)` (R153). -/
def bodySub (b a : Operand) (s : State) : State := writeExBody aluSub b a s

/-- `SUB b, a` (R153). -/
def execSub (b a : Mode) (s : State) : Host.Outcome State Fault Refusal := dispatchBasic bodySub b a s

/-- `ExecMUL(b, a)` (R154). -/
def bodyMul (b a : Operand) (s : State) : State := writeExBody aluMul b a s

/-- `MUL b, a` (R154). -/
def execMul (b a : Mode) (s : State) : Host.Outcome State Fault Refusal := dispatchBasic bodyMul b a s

/-- `ExecMLI(b, a)` (R155). -/
def bodyMli (b a : Operand) (s : State) : State := writeExBody aluMli b a s

/-- `MLI b, a` (R155). -/
def execMli (b a : Mode) (s : State) : Host.Outcome State Fault Refusal := dispatchBasic bodyMli b a s

/-- `ExecDIV(b, a)` (R156). -/
def bodyDiv (b a : Operand) (s : State) : State := writeExBody aluDiv b a s

/-- `DIV b, a` (R156). -/
def execDiv (b a : Mode) (s : State) : Host.Outcome State Fault Refusal := dispatchBasic bodyDiv b a s

/-- `ExecDVI(b, a)` (R157). -/
def bodyDvi (b a : Operand) (s : State) : State := writeExBody (aluDvi Params.sdivRound) b a s

/-- `DVI b, a` (R157). -/
def execDvi (b a : Mode) (s : State) : Host.Outcome State Fault Refusal := dispatchBasic bodyDvi b a s

/-- `ExecMOD(b, a)` (R158). -/
def bodyMod (b a : Operand) (s : State) : State := writeBody aluMod b a s

/-- `MOD b, a` (R158). -/
def execMod (b a : Mode) (s : State) : Host.Outcome State Fault Refusal := dispatchBasic bodyMod b a s

/-- `ExecMDI(b, a)` (R159). -/
def bodyMdi (b a : Operand) (s : State) : State := writeBody (aluMdi Params.sdivRound) b a s

/-- `MDI b, a` (R159). -/
def execMdi (b a : Mode) (s : State) : Host.Outcome State Fault Refusal := dispatchBasic bodyMdi b a s

end Sys2Proof.Machine
end

