-- ==== Sys2Proof/Machine/Unsupported.lean ====
section
/-! DEFINITION. The words with no semantics (spec/30_encoding.md R79, R80): their operands are resolved, a skipped one is skipped, an
executed one raises `UnsupportedInstruction` with the address of its first word (spec/60_exceptions.md R211). -/

namespace Sys2Proof.Machine

/-- Raises the condition; no operand content is read or written (R211). -/
def bodyUnsupBasic (iaddr : Word) (_b _a : Operand) (s : State) : State := raise (.unsupportedInstruction iaddr) s

/-- The same for the special format (R80, R211). -/
def bodyUnsupSpecial (iaddr : Word) (_a : Operand) (s : State) : State := raise (.unsupportedInstruction iaddr) s

/-- Basic `o` = 0x18 to 0x1f (R79); `s.pc` is the address of the first word (R132). -/
def execUnsupBasic (_k : BitVec 3) (b a : Mode) (s : State) : Host.Outcome State Fault Refusal :=
  dispatchBasic (bodyUnsupBasic s.pc) b a s

/-- Special `s` = 0x00 (R80). -/
def execUnsupSpecial00 (a : Mode) (s : State) : Host.Outcome State Fault Refusal :=
  dispatchSpecial (bodyUnsupSpecial s.pc) a s

/-- Special `s` = 0x02 and 0x03 (R80). -/
def execUnsupSpecial02 (_k : BitVec 1) (a : Mode) (s : State) : Host.Outcome State Fault Refusal :=
  dispatchSpecial (bodyUnsupSpecial s.pc) a s

/-- Special `s` = 0x04 to 0x07 (R80). -/
def execUnsupSpecial04 (_k : BitVec 2) (a : Mode) (s : State) : Host.Outcome State Fault Refusal :=
  dispatchSpecial (bodyUnsupSpecial s.pc) a s

/-- Special `s` = 0x08 to 0x0f (R80). -/
def execUnsupSpecial08 (_k : BitVec 3) (a : Mode) (s : State) : Host.Outcome State Fault Refusal :=
  dispatchSpecial (bodyUnsupSpecial s.pc) a s

/-- Special `s` = 0x10 to 0x1f (R80). -/
def execUnsupSpecial10 (_k : BitVec 4) (a : Mode) (s : State) : Host.Outcome State Fault Refusal :=
  dispatchSpecial (bodyUnsupSpecial s.pc) a s

end Sys2Proof.Machine
end

