-- ==== Sys2Proof/Machine/Dispatch.lean ====
section
/-! DEFINITION. `exec i s`: one dispatch of the instruction `i` that stands at `pc` of `s` (R130 from the fetch on), one
arm per constructor. The run status and the budget are `step`'s to test (log entry 12). -/

namespace Sys2Proof.Machine

def exec (i : Instr) (s : State) : Host.Outcome State Fault Refusal :=
  match i with
  | .set b a => Sys2Proof.Machine.execSet b a s
  | .add b a => Sys2Proof.Machine.execAdd b a s
  | .sub b a => Sys2Proof.Machine.execSub b a s
  | .mul b a => Sys2Proof.Machine.execMul b a s
  | .mli b a => Sys2Proof.Machine.execMli b a s
  | .div b a => Sys2Proof.Machine.execDiv b a s
  | .dvi b a => Sys2Proof.Machine.execDvi b a s
  | .mod b a => Sys2Proof.Machine.execMod b a s
  | .mdi b a => Sys2Proof.Machine.execMdi b a s
  | .and b a => Sys2Proof.Machine.execAnd b a s
  | .bor b a => Sys2Proof.Machine.execBor b a s
  | .xor b a => Sys2Proof.Machine.execXor b a s
  | .shr b a => Sys2Proof.Machine.execShr b a s
  | .asr b a => Sys2Proof.Machine.execAsr b a s
  | .shl b a => Sys2Proof.Machine.execShl b a s
  | .ifb b a => Sys2Proof.Machine.execIfb b a s
  | .ifc b a => Sys2Proof.Machine.execIfc b a s
  | .ife b a => Sys2Proof.Machine.execIfe b a s
  | .ifn b a => Sys2Proof.Machine.execIfn b a s
  | .ifg b a => Sys2Proof.Machine.execIfg b a s
  | .ifa b a => Sys2Proof.Machine.execIfa b a s
  | .ifl b a => Sys2Proof.Machine.execIfl b a s
  | .ifu b a => Sys2Proof.Machine.execIfu b a s
  | .jsr a => Sys2Proof.Machine.execJsr a s
  | .unsupBasic k b a => Sys2Proof.Machine.execUnsupBasic k b a s
  | .unsupSpecial00 a => Sys2Proof.Machine.execUnsupSpecial00 a s
  | .unsupSpecial02 k a => Sys2Proof.Machine.execUnsupSpecial02 k a s
  | .unsupSpecial04 k a => Sys2Proof.Machine.execUnsupSpecial04 k a s
  | .unsupSpecial08 k a => Sys2Proof.Machine.execUnsupSpecial08 k a s
  | .unsupSpecial10 k a => Sys2Proof.Machine.execUnsupSpecial10 k a s

end Sys2Proof.Machine
end

