-- ==== Sys2Proof/Machine/Fetch.lean ====
section
/-! DEFINITION. Reading the next instruction from memory, and whether the budget is used up. -/

namespace Sys2Proof.Machine

/-- The instruction at `pc`: its first word and the two words after it, whose addresses wrap (R52, R55, R132). A word
the instruction does not consume is not looked at, and a read has no side effect (R56; log entry 10). -/
def fetchInstr (s : State) : Instr :=
  decodeWords (s.memRead s.pc) (s.memRead (s.pc + 1)) (s.memRead (s.pc + 2))

/-- The bytes of the `n` words from word address `a` on, as memory holds them. -/
def memBytes (m : Memory) : Nat → Word → List Byte
  | 0, _ => []
  | n + 1, a => bytesOf [m.read a] ++ memBytes m n (a + 1)

/-- LIMIT is present and `icount` has reached it (R131). -/
def budgetReached (s : State) : Bool :=
  match s.limit with
  | some n => decide (n ≤ s.icount)
  | none => false

/-- A state with a table word and zero words after it stored at `pc`, where the next fetch reads. -/
def placeWords (s : State) (ws : List Word) : State := { s with mem := s.mem.load s.pc ws }

end Sys2Proof.Machine
end

