-- ==== Sys2Proof/Machine/Step.lean ====
section
/-! DEFINITION. One step of the core (spec/41_dispatch.md R130): the run status, the budget, then one dispatch. -/

namespace Sys2Proof.Machine

/-- `Step()` (R130). It is defined only while `status = Running`; a halted core has no step (R218; log entry 9). The
budget is tested before the fetch (R131, R213), then the instruction at `pc` is dispatched. -/
def step (s : State) : Host.Outcome State Fault Refusal :=
  match s.status with
  | .halted c => .fault (.coreHalted c)
  | .running =>
    if budgetReached s then .next (raise .budgetExhausted s) else exec (fetchInstr s) s

/-- The table word `w` of `nbits` bits, and zero words after it, stored where `step` fetches next. Nothing but memory
changes (log entry 4). -/
def State.withFetchWord (s : State) (nbits w : Nat) : State := placeWords s (tableWords nbits w)

end Sys2Proof.Machine
end

