-- ==== Sys2Proof/Machine/Access.lean ====
section
/-! DEFINITION. The memory accesses of one dispatch in the order of rule R60 (spec/20_memory.md). They are a function of
the instruction and the state before its fetch; nothing in the state records them. -/

namespace Sys2Proof.Machine

/-- One one-word access (R53). -/
inductive Access where
  | read (addr : Word)
  | write (addr v : Word)
  deriving DecidableEq, Repr

/-- The read of an operand's content: an access when the operand is a memory word (R60 steps 4 and 5). -/
def readAccess (o : Operand) : List Access :=
  match o.memAddr with
  | some addr => [.read addr]
  | none => []

/-- The fetch of the first word and of the extra words, skipped or not (R60 steps 1 to 3). -/
def fetchAccesses (i : Instr) (s : State) : List Access :=
  (List.range i.length).map fun k => .read (s.pc + BitVec.ofNat 16 k)

/-- Whether a basic instruction reads its `b` operand, and what it writes to it, given `bv` and `av` (R60 steps 4
and 7). -/
structure BasicUse where
  readsB : Bool
  result : Word → Word → Option Word

/-- The use each basic instruction makes of its operands; a word with no semantics makes none (R211). -/
def basicUse : Instr → Option BasicUse
  | .set _ _ => some ⟨false, fun _ av => some av⟩
  | .add _ _ => some ⟨true, fun bv av => some (aluAdd bv av).value⟩
  | .sub _ _ => some ⟨true, fun bv av => some (aluSub bv av).value⟩
  | .mul _ _ => some ⟨true, fun bv av => some (aluMul bv av).value⟩
  | .mli _ _ => some ⟨true, fun bv av => some (aluMli bv av).value⟩
  | .div _ _ => some ⟨true, fun bv av => some (aluDiv bv av).value⟩
  | .dvi _ _ => some ⟨true, fun bv av => some (aluDvi Params.sdivRound bv av).value⟩
  | .mod _ _ => some ⟨true, fun bv av => some (aluMod bv av)⟩
  | .mdi _ _ => some ⟨true, fun bv av => some (aluMdi Params.sdivRound bv av)⟩
  | .and _ _ => some ⟨true, fun bv av => some (aluAnd bv av)⟩
  | .bor _ _ => some ⟨true, fun bv av => some (aluBor bv av)⟩
  | .xor _ _ => some ⟨true, fun bv av => some (aluXor bv av)⟩
  | .shr _ _ => some ⟨true, fun bv av => some (aluShr bv av).value⟩
  | .asr _ _ => some ⟨true, fun bv av => some (aluAsr bv av).value⟩
  | .shl _ _ => some ⟨true, fun bv av => some (aluShl bv av).value⟩
  | .ifb _ _ | .ifc _ _ | .ife _ _ | .ifn _ _ | .ifg _ _ | .ifa _ _ | .ifl _ _ | .ifu _ _ =>
    some ⟨true, fun _ _ => none⟩
  | .jsr _ | .unsupBasic _ _ _ | .unsupSpecial00 _ | .unsupSpecial02 _ _ | .unsupSpecial04 _ _
  | .unsupSpecial08 _ _ | .unsupSpecial10 _ _ => none

/-- Steps 4, 5 and 7 of R60 for a basic instruction that executes. -/
def basicAccesses (u : BasicUse) (b a : Operand) (s : State) : List Access :=
  (if u.readsB then readAccess b else []) ++ readAccess a ++
    match b.memAddr, u.result (readOp b s) (readOp a s) with
    | some addr, some v => [.write addr v]
    | _, _ => []

/-- Steps 6 and 5 of R60 for a `JSR` that executes: the push comes before the operand's read; a stack overflow
accesses nothing (R203). -/
def jsrAccesses (a : Operand) (s : State) : List Access :=
  if s.sp = 0x0000 then [] else .write (s.sp - 1) s.pc :: readAccess a

/-- The accesses of the body; a skipped instruction makes none (R136). -/
def bodyAccesses (i : Instr) (s : State) : List Access :=
  if s.skip then []
  else
    match i, i.bMode, basicUse i with
    | .jsr a, _, _ =>
      let r := resolve .a a s.fetched
      jsrAccesses r.1 r.2
    | _, some b, some u =>
      let r := resolveBoth b i.aMode s.fetched
      basicAccesses u r.b r.a r.st
    | _, _, _ => []

/-- The accesses of one dispatch of `i`, standing at `pc` of `s`, in order (R60). -/
def accesses (i : Instr) (s : State) : List Access := fetchAccesses i s ++ bodyAccesses i s

/-- The memory after a list of accesses. -/
def applyAccesses (m : Memory) : List Access → Memory
  | [] => m
  | .read _ :: rest => applyAccesses m rest
  | .write addr v :: rest => applyAccesses (m.write addr v) rest

end Sys2Proof.Machine
end

