-- ==== Sys2Proof/Machine/HostOps.lean ====
section
/-! DEFINITION. The host's four operations (spec/70_reset_and_hazards.md R240 to R246). None of them is a move of
`step`: the host acts before a run and after a halt (R62, R246; log entry 14). -/

namespace Sys2Proof.Machine

/-- `Reset(START, IMAGE)` (R241, R242). An image of more than 65,536 words is no valid argument: `none` (R241). -/
def hostReset (start : Word) (image : List Word) : Option State :=
  if image.length ≤ Config.memWords then
    some { State.reset with pc := start, mem := State.reset.mem.load 0x0000 image }
  else none

/-- What `Preset` may set (R243). -/
inductive Element where
  | reg (r : Reg)
  | sp
  | ex
  | mem (addr : Word)
  deriving DecidableEq, Repr

/-- `Preset(element, value)` (R243). -/
def hostPreset (e : Element) (v : Word) (s : State) : State :=
  match e with
  | .reg r => s.setX r v
  | .sp => s.setSp v
  | .ex => s.setEx v
  | .mem addr => s.memWrite addr v

/-- At most `k` steps, ending at the first state that is not running (R140, R141). -/
def runSteps : Nat → State → State
  | 0, s => s
  | k + 1, s =>
    match step s with
    | .next t => runSteps k t
    | .fault _ => s
    | .refused _ => s

/-- The state in which `Run(LIMIT)` begins (R244). -/
def State.withLimit (s : State) (limit : Option Nat) : State := { s with limit := limit }

/-- `Run(LIMIT)` with LIMIT present (R244): the steps up to LIMIT dispatches and the one that tests the budget. A run
with no LIMIT may have no end (R141); what it does in `k` steps is `runSteps k (s.withLimit none)`. -/
def hostRun (limit : Nat) (s : State) : State :=
  runSteps (limit - s.icount + 1) (s.withLimit (some limit))

/-- `Inspect()`: the whole state of a halted core; a core whose status is `Running` shows nothing (R245, R246).
DESIGN CHOICE: a core that has been reset but not yet run is such a core too. R240 lets the host act before the first
run while R245 and R246 name a halted core only; the model follows these two (log entry 25). -/
def hostInspect (s : State) : Option State :=
  match s.status with
  | .halted _ => some s
  | .running => none

end Sys2Proof.Machine
end

