-- ==== Sys2Proof/Machine/Pseudocode.lean ====
section
/-! DEFINITION. The step as rule R130 (spec/41_dispatch.md) writes it: `Resolve` on numeric mode codes, reading each
extra word from memory at `pc` when the mode consumes it (R114), the skip check, the opcode test, `Exec[o]`. A second,
independent reading of fetch, decode and resolution; that `step` equals it is a statement. -/

namespace Sys2Proof.Machine

/-- `NextWord()` (R114). -/
def nextWord (s : State) : Word × State := (s.memRead s.pc, s.setPc (s.pc + 1))

/-- `Resolve(m, hint)` on a mode code, one line per row of the mode table (R101 to R113). -/
def resolveCode (m : Nat) (h : Hint) (s : State) : Operand × State :=
  if m ≤ 0x07 then (.reg (Reg.ofIndex m), s)
  else if m ≤ 0x0f then (.mem (s.x (Reg.ofIndex (m - 0x08))), s)
  else if m ≤ 0x17 then
    let n := nextWord s
    (.mem (n.2.x (Reg.ofIndex (m - 0x10)) + n.1), n.2)
  else
    match m, h with
    | 0x18, .a => (.mem s.sp, s.setSp (s.sp + 1))
    | 0x18, .b => let t := s.setSp (s.sp - 1); (.mem t.sp, t)
    | 0x19, _ => (.mem s.sp, s)
    | 0x1a, _ => let n := nextWord s; (.mem (n.2.sp + n.1), n.2)
    | 0x1b, _ => (.sp, s)
    | 0x1c, _ => (.pc, s)
    | 0x1d, _ => (.ex, s)
    | 0x1e, _ => let n := nextWord s; (.mem n.1, n.2)
    | 0x1f, _ => let n := nextWord s; (.lit n.1, n.2)
    | k, _ => (.lit (u16 ((k : Int) - 0x20)), s)

/-- `Exec[o]`, for `o` from 0x01 to 0x17 (R77, R130). -/
def execTable : Nat → Operand → Operand → State → State
  | 0x01 => bodySet
  | 0x02 => bodyAdd
  | 0x03 => bodySub
  | 0x04 => bodyMul
  | 0x05 => bodyMli
  | 0x06 => bodyDiv
  | 0x07 => bodyDvi
  | 0x08 => bodyMod
  | 0x09 => bodyMdi
  | 0x0a => bodyAnd
  | 0x0b => bodyBor
  | 0x0c => bodyXor
  | 0x0d => bodyShr
  | 0x0e => bodyAsr
  | 0x0f => bodyShl
  | 0x10 => bodyIfb
  | 0x11 => bodyIfc
  | 0x12 => bodyIfe
  | 0x13 => bodyIfn
  | 0x14 => bodyIfg
  | 0x15 => bodyIfa
  | 0x16 => bodyIfl
  | 0x17 => bodyIfu
  | _ => fun _ _ s => s

/-- `Step()` for a running core, line by line (R130). -/
def specStep (s : State) : State :=
  if s.limit.any (fun n => decide (s.icount ≥ n)) then s.setStatus (.halted .budgetExhausted)
  else
    let iaddr := s.pc
    let w := (s.memRead s.pc).toNat
    let s1 := s.setPc (s.pc + 1)
    let s2 := { s1 with icount := s1.icount + 1 }
    let o := w % 32
    let mid := w / 32 % 32
    let am := w / 1024
    if o ≠ 0 then
      let b := resolveCode mid .b s2
      let a := resolveCode am .a b.2
      if a.2.skip then a.2.setSkip false
      else if 0x18 ≤ o then raise (.unsupportedInstruction iaddr) a.2
      else execTable o b.1 a.1 a.2
    else
      let a := resolveCode am .a s2
      if a.2.skip then a.2.setSkip false
      else if mid ≠ 0x01 then raise (.unsupportedInstruction iaddr) a.2
      else bodyJsr a.1 a.2

end Sys2Proof.Machine
end

