-- ==== Sys2Proof/Safety.lean ====
section
/-! DEFINITION. What the claims are stated in: the invariant of every step, reachability, fatal and safe states, the
classes of instructions, and what an instruction's operands do. -/

namespace Sys2Proof.Machine

/-- The outcome of a step or a meaning. -/
abbrev Result := Host.Outcome State Fault Refusal

/-! ### Classes of instructions -/

/-- The IF family (R180). -/
def isIf : Instr → Bool
  | .ifb _ _ | .ifc _ _ | .ife _ _ | .ifn _ _ | .ifg _ _ | .ifa _ _ | .ifl _ _ | .ifu _ _ => true
  | .set _ _ | .add _ _ | .sub _ _ | .mul _ _ | .mli _ _ | .div _ _ | .dvi _ _ | .mod _ _ | .mdi _ _
  | .and _ _ | .bor _ _ | .xor _ _ | .shr _ _ | .asr _ _ | .shl _ _ | .jsr _ | .unsupBasic _ _ _
  | .unsupSpecial00 _ | .unsupSpecial02 _ _ | .unsupSpecial04 _ _ | .unsupSpecial08 _ _
  | .unsupSpecial10 _ _ => false

/-- The words with no semantics (R79, R80). -/
def isUnsupported : Instr → Bool
  | .unsupBasic _ _ _ | .unsupSpecial00 _ | .unsupSpecial02 _ _ | .unsupSpecial04 _ _
  | .unsupSpecial08 _ _ | .unsupSpecial10 _ _ => true
  | .set _ _ | .add _ _ | .sub _ _ | .mul _ _ | .mli _ _ | .div _ _ | .dvi _ _ | .mod _ _ | .mdi _ _
  | .and _ _ | .bor _ _ | .xor _ _ | .shr _ _ | .asr _ _ | .shl _ _ | .jsr _
  | .ifb _ _ | .ifc _ _ | .ife _ _ | .ifn _ _ | .ifg _ _ | .ifa _ _ | .ifl _ _ | .ifu _ _ => false

/-- The instructions that write `ex` as a side effect (R28). -/
def setsEx : Instr → Bool
  | .add _ _ | .sub _ _ | .mul _ _ | .mli _ _ | .div _ _ | .dvi _ _ | .shr _ _ | .asr _ _ | .shl _ _ => true
  | .set _ _ | .mod _ _ | .mdi _ _ | .and _ _ | .bor _ _ | .xor _ _
  | .ifb _ _ | .ifc _ _ | .ife _ _ | .ifn _ _ | .ifg _ _ | .ifa _ _ | .ifl _ _ | .ifu _ _
  | .jsr _ | .unsupBasic _ _ _ | .unsupSpecial00 _ | .unsupSpecial02 _ _ | .unsupSpecial04 _ _
  | .unsupSpecial08 _ _ | .unsupSpecial10 _ _ => false

/-- The instructions that write their destination (R60 step 7). -/
def writesB : Instr → Bool
  | .set _ _ | .add _ _ | .sub _ _ | .mul _ _ | .mli _ _ | .div _ _ | .dvi _ _ | .mod _ _ | .mdi _ _
  | .and _ _ | .bor _ _ | .xor _ _ | .shr _ _ | .asr _ _ | .shl _ _ => true
  | .ifb _ _ | .ifc _ _ | .ife _ _ | .ifn _ _ | .ifg _ _ | .ifa _ _ | .ifl _ _ | .ifu _ _
  | .jsr _ | .unsupBasic _ _ _ | .unsupSpecial00 _ | .unsupSpecial02 _ _ | .unsupSpecial04 _ _
  | .unsupSpecial08 _ _ | .unsupSpecial10 _ _ => false

/-! ### What an instruction's operands do -/

/-- The state after the fetch and the resolution of all operands of `i` (R132, R134, R135). -/
def resolvedState (i : Instr) (s : State) : State :=
  match i.bMode with
  | some b => (resolveBoth b i.aMode s.fetched).st
  | none => (resolve .a i.aMode s.fetched).2

/-- How far a mode moves `sp`: mode 0x18 alone does, up by one for a source, down by one for a destination (R104,
R105). -/
def spMove : Hint → Mode → Word
  | .a, .stack => 1
  | .b, .stack => -1
  | _, _ => 0

/-- How far the operands of `i` move `sp` together. -/
def spMoves (i : Instr) : Word :=
  match i.bMode with
  | some b => spMove .b b + spMove .a i.aMode
  | none => spMove .a i.aMode

/-- The state after fetch and resolution, written out: past every word of `i`, `sp` moved, the dispatch counted, all
else as before (R22, R100, R116, R136). -/
def passed (i : Instr) (s : State) : State :=
  { s with
    pc := s.pc + BitVec.ofNat 16 i.length
    sp := s.sp + spMoves i
    icount := s.icount + 1 }

/-- The predicate of an IF (R181 to R188). -/
def ifPred : Instr → Option (Word → Word → Bool)
  | .ifb _ _ => some predIfb
  | .ifc _ _ => some predIfc
  | .ife _ _ => some predIfe
  | .ifn _ _ => some predIfn
  | .ifg _ _ => some predIfg
  | .ifa _ _ => some predIfa
  | .ifl _ _ => some predIfl
  | .ifu _ _ => some predIfu
  | .set _ _ | .add _ _ | .sub _ _ | .mul _ _ | .mli _ _ | .div _ _ | .dvi _ _ | .mod _ _ | .mdi _ _
  | .and _ _ | .bor _ _ | .xor _ _ | .shr _ _ | .asr _ _ | .shl _ _ | .jsr _ | .unsupBasic _ _ _
  | .unsupSpecial00 _ | .unsupSpecial02 _ _ | .unsupSpecial04 _ _ | .unsupSpecial08 _ _
  | .unsupSpecial10 _ _ => none

/-- The operands of a basic instruction `b, a` that stands at `pc` of `s`: resolved after its fetch, `b` first (R115,
R132). -/
def operandsOf (b a : Mode) (s : State) : Resolved := resolveBoth b a s.fetched

/-- `bv = Read(b)` (R138). -/
def Resolved.bv (r : Resolved) : Word := readOp r.b r.st

/-- `av = Read(a)` (R138). -/
def Resolved.av (r : Resolved) : Word := readOp r.a r.st

/-- The mode names general register `r`, directly or as an address (R21). -/
def modeNames : Mode → Reg → Bool
  | .reg q, r | .ind q, r | .idx q _, r => decide (q = r)
  | .stack, _ | .peek, _ | .pick _, _ | .sp, _ | .pc, _ | .ex, _ | .mem _, _ | .lit _, _ | .inline _, _ => false

/-- An operand of `i` names register `r` (R21). -/
def namesReg (i : Instr) (r : Reg) : Bool :=
  (match i.bMode with
    | some b => modeNames b r
    | none => false) || modeNames i.aMode r

/-- Every word whose opcode field is `o` decodes to an instruction that `mk` builds (R71, R77). -/
def decodesAs (o : BitVec 5) (mk : Mode → Mode → Instr) : Prop :=
  ∀ w x1 x2 : Word, fieldO w = o → ∃ b a, decodeWords w x1 x2 = mk b a

/-- `nw(m)` of a mode code (R75). -/
def nw (m : Nat) : Nat :=
  if m ∈ [0x10, 0x11, 0x12, 0x13, 0x14, 0x15, 0x16, 0x17, 0x1a, 0x1e, 0x1f] then 1 else 0

/-- The word address an instruction stores to, if it executes: the destination operand's for an instruction that
writes it (R60 step 7), the decremented `sp` for a `JSR` that finds `sp` not zero (R60 step 6, R203). -/
def storeAddr (i : Instr) (s : State) : Option Word :=
  if s.skip then none
  else
    match i with
    | .jsr a =>
      let t := (resolve .a a s.fetched).2
      if t.sp = 0 then none else some (t.sp - 1)
    | _ =>
      match i.bMode with
      | some b => if writesB i then (resolveBoth b i.aMode s.fetched).b.memAddr else none
      | none => none

/-! ### The invariant and the reachable states -/

/-- What every step keeps: memory in canonical form, no more dispatches than LIMIT, and each halted status standing on
the state its rule gives (R34, R131, R211 to R213). -/
structure Inv (s : State) : Prop where
  memory : s.mem.wf = true
  budget : ∀ n, s.limit = some n → s.icount ≤ n
  unsupported : ∀ a, s.status = .halted (.unsupportedInstruction a) → s.skip = false
  overflow : s.status = .halted .stackOverflow → s.sp = 0 ∧ s.skip = false
  exhausted : s.status = .halted .budgetExhausted → s.limit = some s.icount

/-- `t` comes from `s` by zero or more steps. -/
inductive Reaches (s : State) : State → Prop where
  | refl : Reaches s s
  | tail {t u : State} (h : Reaches s t) (hu : step t = .next u) : Reaches s u

/-- A fatal condition stopped the core (R210); the budget's end is not one. -/
def fatal (s : State) : Bool :=
  match s.status with
  | .halted (.unsupportedInstruction _) | .halted .stackOverflow => true
  | .halted .budgetExhausted | .running => false

/-- A run is safe when no state it reaches is fatal. -/
def Safe (s : State) : Prop := ∀ t, Reaches s t → fatal t = false

end Sys2Proof.Machine
end

