-- ==== Sys2Proof/Certificates/Slice0/Obligations.lean ====
section
/-! DEFINITION. The statements for the provers. Each docstring names the rules of spec/ it formalises. -/

open Sys2Proof Sys2Proof.Machine

/-! ### Encoding -/

/-- R70 to R78: the words of a well-formed instruction, followed by anything, decode to that instruction and leave
what follows; no bit of an encoding is dropped, for any instruction and operand. Rests on log entries 1 and 7. -/
def Obligations.DecodeOfEncodeIsIdentity : Prop :=
  ∀ (i : Instr) (rest : List Byte), i.wellFormed = true → decode (encodeBytes i ++ rest) = .ok (i, rest)

/-- R70 to R76: whatever three words stand in memory, the instruction decoded from them is well formed and encodes to
exactly the words it consumed. Rests on log entry 7. -/
def Obligations.EncodeOfDecodeGivesTheConsumedWords : Prop :=
  ∀ w x1 x2 : Word,
    (decodeWords w x1 x2).wellFormed = true ∧
      encode (decodeWords w x1 x2) = w :: [x1, x2].take (extraCount w)

/-- R73: packing and unpacking are exact inverses, over every field value and over every word. Rests on log entry 7. -/
def Obligations.PackAndUnpackAreInverse : Prop :=
  (∀ (o b : BitVec 5) (a : BitVec 6),
      fieldO (pack o b a) = o ∧ fieldB (pack o b a) = b ∧ fieldA (pack o b a) = a) ∧
    ∀ w : Word, pack (fieldO w) (fieldB w) (fieldA w) = w

/-- R73, R79 to R81 and the opcode table: every first word lies in the row of the instruction it decodes to, and in
no row besides. Rests on log entry 7. -/
def Obligations.EveryFirstWordLiesInExactlyOneRow : Prop :=
  ∀ w x1 x2 : Word,
    (decodeWords w x1 x2).row.covers w ∧
      ∀ j : Instr, j.row.covers w → j.row = (decodeWords w x1 x2).row

/-- R75: the length in words is `1 + nw(b) + nw(a)` in the basic format and `1 + nw(a)` in the special one, told from
the first word alone, and at most 3. Rests on log entry 7. -/
def Obligations.LengthIsToldFromTheFirstWord : Prop :=
  ∀ w x1 x2 : Word,
    (decodeWords w x1 x2).length =
        (if w.toNat % 32 = 0 then 1 + nw (w.toNat / 1024)
          else 1 + nw (w.toNat / 32 % 32) + nw (w.toNat / 1024)) ∧
      (decodeWords w x1 x2).length ≤ 3

/-- R71, R72, R77, R78: words of spec/95_test_vectors.md 3.1 decode to the instructions that table gives. Rests on
log entries 7 and 8. -/
def Obligations.SampleWordsDecodeAsTheSpecSays : Prop :=
  decodeWords 0x0402 0 0 = .add (.reg .A) (.reg .B) ∧
    decodeWords 0x7C01 0x0030 0 = .set (.reg .A) (.lit 0x0030) ∧
    decodeWords 0x6381 0 0 = .set .pc .stack ∧
    decodeWords 0xA00D 0 0 = .shr (.reg .A) (.inline 8) ∧
    decodeWords 0x5AC1 0x2000 0x0010 = .set (.idx .I 0x2000) (.idx .I 0x0010) ∧
    decodeWords 0xFFF7 0x0009 0 = .ifu (.lit 0x0009) (.inline 31) ∧
    decodeWords 0x1820 0 0 = .jsr (.reg .I) ∧
    decodeWords 0x7FD8 0x1000 0x0020 = .unsupBasic 0 (.mem 0x1000) (.lit 0x0020) ∧
    decodeWords 0x0040 0 0 = .unsupSpecial02 0 (.reg .A)

/-! ### The step -/

/-- R130 to R133: when the bytes at `pc` decode to `i`, a step of a running core whose budget is not used up is one
dispatch of `i`; nothing is added around it. -/
def Obligations.StepRunsTheDecodedInstruction : Prop :=
  ∀ (s : State) (i : Instr) (rest : List Byte), s.status = .running → budgetReached s = false →
    decode (memBytes s.mem 3 s.pc) = .ok (i, rest) → step s = exec i s

/-- R130: a running core's step is the spec's pseudocode, on every state: its own decoding of the fields, its resolver
on numeric mode codes that reads each extra word from memory as the mode consumes it, its order of tests. The layout,
the opcode numbers and the literal bias in it, the budget test before the fetch, the skip check before the opcode test
and the entry of a condition are the spec's own decisions. Rests on log entries 5, 7, 8, 10, 11, 15, 19 and 20. -/
def Obligations.StepIsTheSpecPseudocode : Prop :=
  ∀ s : State, s.status = .running → step s = .next (specStep s)

/-- Log entry 4, and R132: a table word placed where the core fetches next is the instruction the next step runs. -/
def Obligations.PlacedWordIsTheNextInstruction : Prop :=
  ∀ (s : State) (nbits w : Nat) (i : Instr), s.status = .running → budgetReached s = false →
    decodeTableWord nbits w = some i →
    step (s.withFetchWord nbits w) = exec i (s.withFetchWord nbits w)

/-- R213: with `icount >= LIMIT` the core halts before the fetch, only the status changes, and there is no step after
it; below LIMIT, or with none, the instruction at `pc` is dispatched. Rests on log entries 9 and 20. -/
def Obligations.BudgetHaltsBeforeTheFetch : Prop :=
  ∀ s : State, s.status = .running →
    (∀ n, s.limit = some n → n ≤ s.icount →
      step s = .next { s with status := .halted .budgetExhausted } ∧
        ∀ u, step { s with status := .halted .budgetExhausted } ≠ .next u) ∧
    ((∀ n, s.limit = some n → s.icount < n) → step s = exec (fetchInstr s) s)

/-- R218; that the missing step is a fault of that name is the model's choice (log entry 9). -/
def Obligations.HaltedCoreMakesNoStep : Prop :=
  ∀ (s : State) (c : HaltCause), s.status = .halted c → step s = .fault (.coreHalted c)

/-- R51, R214, R216: no instruction and no operand value ends a dispatch in a fault or a refusal; a running core
always has a next state, whatever memory and the registers hold. Rests on log entry 11. -/
def Obligations.RunningCoreAlwaysHasANextState : Prop :=
  (∀ (i : Instr) (s : State), ∃ t, exec i s = .next t ∧ t.icount = s.icount + 1) ∧
    ∀ s : State, s.status = .running → ∃ t, step s = .next t

/-- R58: a store is seen by the very next fetch. Rests on log entry 23. -/
def Obligations.StoreIsSeenByTheNextFetch : Prop :=
  ∀ (s : State) (w : Word), (fetchInstr (s.memWrite s.pc w)).firstWord = w

/-! ### Reset, the invariant, runs -/

/-- R36, R241, R242: what `Reset(START, IMAGE)` leaves in every element of the state; an image of more than 65,536
words is no valid argument; with the default START and the empty image it is the reset state. Rests on log entries 2,
3 and 4. -/
def Obligations.ResetLeavesTheStatedValues : Prop :=
  (∀ (start : Word) (image : List Word), image.length ≤ 65536 →
    ∃ s, hostReset start image = some s ∧
      (∀ r, s.x r = 0x0000) ∧ s.pc = start ∧ s.sp = 0xFFFF ∧ s.ex = 0x0000 ∧ s.skip = false ∧
      s.status = .running ∧ s.icount = 0 ∧
      ∀ k : Nat, k < 65536 → s.memRead (BitVec.ofNat 16 k) = image.getD k 0x0000) ∧
  (∀ (start : Word) (image : List Word), 65536 < image.length → hostReset start image = none) ∧
  hostReset 0x0000 [] = some State.reset

/-- The invariant holds after every reset. Rests on log entry 1. -/
def Obligations.ResetMeetsTheInvariant : Prop :=
  Inv State.reset ∧ ∀ (start : Word) (image : List Word) (s : State), hostReset start image = some s → Inv s

/-- R34, R131, R211 to R213: from every state that meets it, reached or not, a step keeps the invariant. Rests on log
entries 1 and 5. -/
def Obligations.StepKeepsTheInvariant : Prop :=
  ∀ s t : State, Inv s → step s = .next t → Inv t

/-- R131, R141, R244: `Run(LIMIT)` ends, having dispatched at most LIMIT instructions, exactly LIMIT unless a fatal
condition came first. Rests on log entries 5, 14 and 20. -/
def Obligations.BoundedRunHaltsWithinItsLimit : Prop :=
  ∀ (s : State) (n : Nat), s.status = .running → s.icount ≤ n →
    (hostRun n s).status ≠ .running ∧ (hostRun n s).icount ≤ n ∧
      (fatal (hostRun n s) = false →
        (hostRun n s).status = .halted .budgetExhausted ∧ (hostRun n s).icount = n)

/-- R140, R246: a run with a larger LIMIT retraces the steps of the smaller one and goes on from where that one's
budget ended. Rests on log entries 5, 14 and 20. -/
def Obligations.LargerLimitRetracesTheShorterRun : Prop :=
  ∀ (s : State) (n m : Nat), s.status = .running → s.icount ≤ n → n ≤ m →
    (hostRun n s).status = .halted .budgetExhausted →
    hostRun m s = hostRun m { hostRun n s with status := .running }

/-- R243, R245: `Preset` sets the named element and no other; `Inspect` shows a halted core whole. Rests on log entry
14. -/
def Obligations.PresetSetsOneElementAndInspectShowsAll : Prop :=
  (∀ (r : Reg) (v : Word) (s : State), hostPreset (.reg r) v s = { s with regs := s.regs.set r v } ∧
    ∀ q, (hostPreset (.reg r) v s).x q = if q = r then v else s.x q) ∧
  (∀ (v : Word) (s : State), hostPreset .sp v s = { s with sp := v } ∧ hostPreset .ex v s = { s with ex := v }) ∧
  (∀ (p v : Word) (s : State), ∃ m, hostPreset (.mem p) v s = { s with mem := m } ∧
    ∀ q, m.read q = if q = p then v else s.mem.read q) ∧
  ∀ s c, s.status = .halted c → hostInspect s = some s

/-! ### Memory and operands -/

/-- R52, R53, R57: a read gives the word last written there, every other word and every byte outside the stored word
keeps its value. Rests on log entry 1. -/
def Obligations.ReadGivesTheLatestWrite : Prop :=
  ∀ (m : Memory) (a v : Word),
    (∀ b, (m.write a v).read b = if b = a then v else m.read b) ∧
      ∀ k, k ≠ byteAddr a → k ≠ byteAddr a + 1 → (m.write a v).readByte k = m.readByte k

/-- R101, R102, R103 on mode codes: register direct, register indirect, register plus the next word. -/
def Obligations.RegisterModesResolveByTheirCode : Prop :=
  ∀ (h : Hint) (s : State) (r : Reg),
    resolve h (decodeMode (BitVec.ofNat 6 r.index) (s.memRead s.pc)) s = (.reg r, s) ∧
    resolve h (decodeMode (BitVec.ofNat 6 (0x08 + r.index)) (s.memRead s.pc)) s = (.mem (s.x r), s) ∧
    resolve h (decodeMode (BitVec.ofNat 6 (0x10 + r.index)) (s.memRead s.pc)) s =
      (.mem (s.x r + s.memRead s.pc), { s with pc := s.pc + 1 })

/-- R104 to R107 on mode codes: pop, push, peek, pick. Rests on log entries 15 and 21. -/
def Obligations.StackModesResolveByTheirCode : Prop :=
  ∀ (s : State) (h : Hint),
    resolve .a (decodeMode 0x18 (s.memRead s.pc)) s = (.mem s.sp, { s with sp := s.sp + 1 }) ∧
    resolve .b (decodeMode 0x18 (s.memRead s.pc)) s = (.mem (s.sp - 1), { s with sp := s.sp - 1 }) ∧
    resolve h (decodeMode 0x19 (s.memRead s.pc)) s = (.mem s.sp, s) ∧
    resolve h (decodeMode 0x1a (s.memRead s.pc)) s =
      (.mem (s.sp + s.memRead s.pc), { s with pc := s.pc + 1 })

/-- R108 to R113 on mode codes: `SP`, `PC`, `EX`, `[n]`, the next-word literal, and the inline literals, whose value
is the code less 0x20. Rests on log entry 8. -/
def Obligations.SpecialAndLiteralModesResolveByTheirCode : Prop :=
  ∀ (s : State) (h : Hint),
    resolve h (decodeMode 0x1b (s.memRead s.pc)) s = (.sp, s) ∧
    resolve h (decodeMode 0x1c (s.memRead s.pc)) s = (.pc, s) ∧
    resolve h (decodeMode 0x1d (s.memRead s.pc)) s = (.ex, s) ∧
    resolve h (decodeMode 0x1e (s.memRead s.pc)) s = (.mem (s.memRead s.pc), { s with pc := s.pc + 1 }) ∧
    resolve h (decodeMode 0x1f (s.memRead s.pc)) s = (.lit (s.memRead s.pc), { s with pc := s.pc + 1 }) ∧
    ∀ n : Nat, n ≤ 31 →
      resolve h (decodeMode (BitVec.ofNat 6 (0x20 + n)) (s.memRead s.pc)) s = (.lit (BitVec.ofNat 16 n), s)

/-- R115: `b` is resolved first, and `a` sees what `b` left: under `b = PUSH`, an `a` of `PEEK` addresses the very word being
pushed, and an `a` of `POP` addresses that same word and puts `sp` back. -/
def Obligations.DestinationIsResolvedBeforeSource : Prop :=
  (∀ (b a : Mode) (s : State),
    (resolveBoth b a s).b = (resolve .b b s).1 ∧
      (resolveBoth b a s).a = (resolve .a a (resolve .b b s).2).1 ∧
      (resolveBoth b a s).st = (resolve .a a (resolve .b b s).2).2) ∧
  ∀ s : State,
    (resolveBoth .stack .peek s).a = .mem (s.sp - 1) ∧
    (resolveBoth .stack .peek s).b = .mem (s.sp - 1) ∧
    (resolveBoth .stack .stack s).a = .mem (s.sp - 1) ∧
    (resolveBoth .stack .stack s).b = .mem (s.sp - 1) ∧
    (resolveBoth .stack .stack s).st = s

/-- R100, R116: fetch and resolution move `pc` past every word of the instruction, move `sp` for mode 0x18, count the
dispatch, and change nothing else, whether or not the instruction is skipped. Rests on log entries 15 and 20. -/
def Obligations.ResolutionMovesOnlyPcAndSp : Prop :=
  ∀ (i : Instr) (s : State), resolvedState i s = passed i s

/-- R118, R119: what each operand reads and what a write to it changes; a write to a literal changes nothing. Rests
on log entry 15. -/
def Obligations.OperandsReadAndWriteTheirLocation : Prop :=
  ∀ (s : State) (v : Word),
    (∀ r, readOp (.reg r) s = s.x r ∧ writeOp (.reg r) v s = { s with regs := s.regs.set r v } ∧
      ∀ q, (writeOp (.reg r) v s).x q = if q = r then v else s.x q) ∧
    (readOp .sp s = s.sp ∧ writeOp .sp v s = { s with sp := v }) ∧
    (readOp .pc s = s.pc ∧ writeOp .pc v s = { s with pc := v }) ∧
    (readOp .ex s = s.ex ∧ writeOp .ex v s = { s with ex := v }) ∧
    (∀ p, readOp (.mem p) s = s.memRead p ∧ writeOp (.mem p) v s = { s with mem := s.mem.write p v } ∧
      ∀ q, (writeOp (.mem p) v s).memRead q = if q = p then v else s.memRead q) ∧
    ∀ n, readOp (.lit n) s = n ∧ writeOp (.lit n) v s = s

/-! ### Results of the move and arithmetic instructions -/

/-- R151: the destination receives the source's content and nothing else is written. The opcode number is the spec's
decision D4, that `ex` stays its decision D9. Rests on log entries 7 and 16. -/
def Obligations.SetCopiesItsSource : Prop :=
  decodesAs 0x01 .set ∧
  ∀ (b a : Mode) (s : State), s.skip = false →
    let r := operandsOf b a s
    exec (.set b a) s = .next (writeOp r.b r.av r.st)

/-- R152, R153: sum and difference modulo 2^16; `ex` is 1 on a carry out of bit 15, 0xFFFF on a borrow, else 0; the
destination is written after `ex`, and a literal destination drops that write alone. The opcode numbers are the spec's
decision D4. Rests on log entries 7 and 15. -/
def Obligations.AddAndSubReportCarryAndBorrow : Prop :=
  decodesAs 0x02 .add ∧ decodesAs 0x03 .sub ∧
  ∀ (b a : Mode) (s : State), s.skip = false →
    let r := operandsOf b a s
    exec (.add b a) s =
        .next (writeOp r.b (r.bv + r.av)
          (r.st.setEx (if 0xFFFF < r.bv.toNat + r.av.toNat then 0x0001 else 0x0000))) ∧
      exec (.sub b a) s =
        .next (writeOp r.b (r.bv - r.av) (r.st.setEx (if r.bv.toNat < r.av.toNat then 0xFFFF else 0x0000)))

/-- R154, R155: the low half of the 32-bit product goes to the destination and the high half to `ex`; `MLI`
multiplies the sign-extended operands. Rests on log entries 7 and 22. -/
def Obligations.MulAndMliSplitTheProduct : Prop :=
  decodesAs 0x04 .mul ∧ decodesAs 0x05 .mli ∧
  ∀ (b a : Mode) (s : State), s.skip = false →
    let r := operandsOf b a s
    let p := r.bv.setWidth 32 * r.av.setWidth 32
    let q := r.bv.signExtend 32 * r.av.signExtend 32
    exec (.mul b a) s = .next (writeOp r.b (p.extractLsb' 0 16) (r.st.setEx (p.extractLsb' 16 16))) ∧
      exec (.mli b a) s = .next (writeOp r.b (q.extractLsb' 0 16) (r.st.setEx (q.extractLsb' 16 16))) ∧
      q.extractLsb' 0 16 = p.extractLsb' 0 16

/-- R156, R158: unsigned quotient with the first 16 fraction bits in `ex`, unsigned remainder with `ex` unchanged; a
divisor of 0 gives 0 (and `ex` 0 for `DIV`) and no fault. Rests on log entries 7 and 16. -/
def Obligations.DivAndModAreUnsigned : Prop :=
  decodesAs 0x06 .div ∧ decodesAs 0x08 .mod ∧
  ∀ (b a : Mode) (s : State), s.skip = false →
    let r := operandsOf b a s
    (r.av = 0 →
      exec (.div b a) s = .next (writeOp r.b 0 (r.st.setEx 0)) ∧
        exec (.mod b a) s = .next (writeOp r.b 0 r.st)) ∧
    (r.av ≠ 0 →
      exec (.div b a) s =
          .next (writeOp r.b (BitVec.ofNat 16 (r.bv.toNat / r.av.toNat))
            (r.st.setEx (BitVec.ofNat 16 (r.bv.toNat % r.av.toNat * 65536 / r.av.toNat)))) ∧
        exec (.mod b a) s = .next (writeOp r.b (BitVec.ofNat 16 (r.bv.toNat % r.av.toNat)) r.st))

/-- R157, R159 with the default rounding toward zero: `sdiv` and `srem` of the 16-bit patterns, so that -32768 / -1
stores 0x8000; and what both become when SDIV_ROUND is `floor`. Rests on log entries 6, 7 and 22. -/
def Obligations.DviAndMdiAreSigned : Prop :=
  decodesAs 0x07 .dvi ∧ decodesAs 0x09 .mdi ∧
  (∀ (b a : Mode) (s : State), s.skip = false →
    let r := operandsOf b a s
    (r.av = 0 →
      exec (.dvi b a) s = .next (writeOp r.b 0 (r.st.setEx 0)) ∧
        exec (.mdi b a) s = .next (writeOp r.b 0 r.st)) ∧
    (r.av ≠ 0 →
      exec (.dvi b a) s =
          .next (writeOp r.b (r.bv.sdiv r.av)
            (r.st.setEx (BitVec.ofInt 16 ((r.bv.toInt * 65536).tdiv r.av.toInt)))) ∧
        exec (.mdi b a) s = .next (writeOp r.b (r.bv.srem r.av) r.st))) ∧
  ∀ bv av : Word, av ≠ 0 →
    aluDvi .floor bv av =
        ⟨BitVec.ofInt 16 (bv.toInt.fdiv av.toInt), BitVec.ofInt 16 ((bv.toInt * 65536).fdiv av.toInt)⟩ ∧
      aluMdi .floor bv av = bv.smod av

/-- R160: under either rounding quotient and remainder belong together: `sb = sa * q + r`, `|r| < |sa|`, and `r`
takes the sign of the dividend (rounding toward zero) or of the divisor (flooring); `MDI` stores exactly that
remainder. Rests on log entry 6. -/
def Obligations.SignedRemainderBelongsToTheQuotient : Prop :=
  ∀ (d : SDivRound) (bv av : Word), av ≠ 0 →
    ∃ q rem : Int, s16 bv = s16 av * q + rem ∧ |rem| < |s16 av| ∧
      (aluDvi d bv av).value = u16 q ∧ s16 (aluMdi d bv av) = rem ∧
      (d = .trunc → 0 ≤ rem * s16 bv) ∧ (d = .floor → 0 ≤ rem * s16 av)

/-- R138, R160: all reads come before all writes when both operands name one register. The values of `ex` are those of
R153, R156 and R157; that `MOD` leaves it is R158 and R139 by decision D9, that `XOR` does is R173. Rests on log entries
15, 16 and 22. -/
def Obligations.SameRegisterTwiceIsReadBeforeItIsWritten : Prop :=
  ∀ (r : Reg) (s : State), s.skip = false →
    ∃ tadd tsub tmul tdiv tdvi tmod txor,
      exec (.add (.reg r) (.reg r)) s = .next tadd ∧ tadd.x r = 2 * s.x r ∧
      exec (.sub (.reg r) (.reg r)) s = .next tsub ∧ tsub.x r = 0 ∧ tsub.ex = 0 ∧
      exec (.mul (.reg r) (.reg r)) s = .next tmul ∧ tmul.x r = s.x r * s.x r ∧
      exec (.div (.reg r) (.reg r)) s = .next tdiv ∧ tdiv.x r = (if s.x r = 0 then 0 else 1) ∧ tdiv.ex = 0 ∧
      exec (.dvi (.reg r) (.reg r)) s = .next tdvi ∧ tdvi.x r = (if s.x r = 0 then 0 else 1) ∧ tdvi.ex = 0 ∧
      exec (.mod (.reg r) (.reg r)) s = .next tmod ∧ tmod.x r = 0 ∧ tmod.ex = s.ex ∧
      exec (.xor (.reg r) (.reg r)) s = .next txor ∧ txor.x r = 0 ∧ txor.ex = s.ex

/-- R152, R153: the multi-word idioms. `ADD lo, lo'`, `ADD hi, EX`, `ADD hi, hi'` is 32-bit addition, and `SUB lo, lo'`,
`ADD hi, EX`, `SUB hi, hi'` is 32-bit subtraction, the carry and the borrow passing through `ex`. -/
def Obligations.MultiWordSumAndDifferenceGoThroughEx : Prop :=
  ∀ (lo hi lo' hi' : Reg) (s : State), s.skip = false → lo ≠ hi → hi' ≠ lo → hi' ≠ hi →
    ∃ t1 t2 t3 u1 u2 u3,
      exec (.add (.reg lo) (.reg lo')) s = .next t1 ∧ exec (.add (.reg hi) .ex) t1 = .next t2 ∧
      exec (.add (.reg hi) (.reg hi')) t2 = .next t3 ∧
      (t3.x hi ++ t3.x lo : BitVec 32) = (s.x hi ++ s.x lo) + (s.x hi' ++ s.x lo') ∧
      exec (.sub (.reg lo) (.reg lo')) s = .next u1 ∧ exec (.add (.reg hi) .ex) u1 = .next u2 ∧
      exec (.sub (.reg hi) (.reg hi')) u2 = .next u3 ∧
      (u3.x hi ++ u3.x lo : BitVec 32) = (s.x hi ++ s.x lo) - (s.x hi' ++ s.x lo')

/-! ### Results of the bitwise and shift instructions -/

/-- R171, R172, R173: bit by bit, with `ex` unchanged unless it is the destination. The opcode numbers are the spec's
decision D4. Rests on log entry 7. -/
def Obligations.BitwiseInstructionsWorkBitByBit : Prop :=
  decodesAs 0x0a .and ∧ decodesAs 0x0b .bor ∧ decodesAs 0x0c .xor ∧
  ∀ (b a : Mode) (s : State), s.skip = false →
    let r := operandsOf b a s
    ∃ va vo vx : Word,
      exec (.and b a) s = .next (writeOp r.b va r.st) ∧
      exec (.bor b a) s = .next (writeOp r.b vo r.st) ∧
      exec (.xor b a) s = .next (writeOp r.b vx r.st) ∧
      ∀ k, k < 16 →
        va.getLsbD k = (r.bv.getLsbD k && r.av.getLsbD k) ∧
        vo.getLsbD k = (r.bv.getLsbD k || r.av.getLsbD k) ∧
        vx.getLsbD k = (r.bv.getLsbD k ^^ r.av.getLsbD k)

/-- R170, R174, R175, R176: the amount is the whole unsigned `av`; the results are the floors of the exact quotients
and products, cut to 16 bits; `ex` is written first. Rests on log entries 7 and 17. -/
def Obligations.ShiftsComputeOverUnboundedIntegers : Prop :=
  decodesAs 0x0d .shr ∧ decodesAs 0x0e .asr ∧ decodesAs 0x0f .shl ∧
  ∀ (b a : Mode) (s : State), s.skip = false →
    let r := operandsOf b a s
    let n := r.av.toNat
    exec (.shr b a) s =
        .next (writeOp r.b (BitVec.ofNat 16 (r.bv.toNat / 2 ^ n))
          (r.st.setEx (BitVec.ofNat 16 (r.bv.toNat * 65536 / 2 ^ n)))) ∧
      exec (.asr b a) s =
        .next (writeOp r.b (BitVec.ofInt 16 (r.bv.toInt.fdiv (2 ^ n)))
          (r.st.setEx (BitVec.ofInt 16 ((r.bv.toInt * 65536).fdiv (2 ^ n))))) ∧
      exec (.shl b a) s =
        .next (writeOp r.b (BitVec.ofNat 16 (r.bv.toNat * 2 ^ n))
          (r.st.setEx (BitVec.ofNat 16 (r.bv.toNat * 2 ^ n / 65536))))

/-- R174 to R177: the closed forms of the three shifts, for every amount. Rests on log entry 17. -/
def Obligations.ShiftClosedFormsHoldForEveryAmount : Prop :=
  ∀ bv av : Word,
    let n := av.toNat
    let sgn : Word := if bv.msb then 0xFFFF else 0x0000
    (n ≤ 16 → aluShr bv av = ⟨bv >>> n, bv <<< (16 - n)⟩) ∧
    (17 ≤ n → n ≤ 31 → aluShr bv av = ⟨0, bv >>> (n - 16)⟩) ∧
    (32 ≤ n → aluShr bv av = ⟨0, 0⟩) ∧
    (n ≤ 15 → aluAsr bv av = ⟨bv.sshiftRight n, bv <<< (16 - n)⟩) ∧
    (n = 16 → aluAsr bv av = ⟨sgn, bv⟩) ∧
    (17 ≤ n → n ≤ 31 → aluAsr bv av = ⟨sgn, bv.sshiftRight (n - 16)⟩) ∧
    (32 ≤ n → aluAsr bv av = ⟨sgn, sgn⟩) ∧
    (n ≤ 15 → aluShl bv av = ⟨bv <<< n, bv >>> (16 - n)⟩) ∧
    (16 ≤ n → n ≤ 31 → aluShl bv av = ⟨0, bv <<< (n - 16)⟩) ∧
    (32 ≤ n → aluShl bv av = ⟨0, 0⟩)

/-! ### The IF family and the skip -/

/-- R180 to R188: each IF leaves the resolved state as it is when its predicate holds and sets `skip` when it does not.
The opcode numbers are the spec's decision D4, that `ex` stays its decision D9. Rests on log entries 7 and 16. -/
def Obligations.ConditionalsSetSkipWhenTheirPredicateFails : Prop :=
  decodesAs 0x10 .ifb ∧ decodesAs 0x11 .ifc ∧ decodesAs 0x12 .ife ∧ decodesAs 0x13 .ifn ∧
  decodesAs 0x14 .ifg ∧ decodesAs 0x15 .ifa ∧ decodesAs 0x16 .ifl ∧ decodesAs 0x17 .ifu ∧
  ∀ (b a : Mode) (s : State), s.skip = false →
    let r := operandsOf b a s
    let after : Bool → Result := fun p => .next { r.st with skip := !p }
    exec (.ifb b a) s = after (r.bv &&& r.av != 0) ∧
    exec (.ifc b a) s = after (r.bv &&& r.av == 0) ∧
    exec (.ife b a) s = after (r.bv == r.av) ∧
    exec (.ifn b a) s = after (r.bv != r.av) ∧
    exec (.ifg b a) s = after (r.av.ult r.bv) ∧
    exec (.ifa b a) s = after (r.av.slt r.bv) ∧
    exec (.ifl b a) s = after (r.bv.ult r.av) ∧
    exec (.ifu b a) s = after (r.bv.slt r.av)

/-- R136, R204: a skipped instruction of any kind, `JSR` and unsupported words included, is passed over whole: `pc`
past all its words, `sp` moved by a mode 0x18, the dispatch counted, `skip` cleared, nothing else. Rests on log
entries 19 and 20. -/
def Obligations.SkippedInstructionIsPassedOverWhole : Prop :=
  ∀ (i : Instr) (s : State), s.skip = true → exec i s = .next { passed i s with skip := false }

/-- R136, R137: after a dispatch `skip` is set exactly when an IF executed and its predicate was false; a set `skip`
never survives the next dispatch, which it suppresses whole, so nothing chains. Rests on log entries 19 and 20. -/
def Obligations.SkipIsSetOnlyByAFalseConditional : Prop :=
  ∀ (i : Instr) (s t : State), exec i s = .next t →
    (t.skip = true ↔
      s.skip = false ∧ ∃ b p, i.bMode = some b ∧ ifPred i = some p ∧
        p (operandsOf b i.aMode s).bv (operandsOf b i.aMode s).av = false) ∧
    (s.skip = true → t = { passed i s with skip := false })

/-! ### Call, return, jumps, the stack -/

/-- R200, R201, R202: an executing `JSR` that finds `sp` not 0 decrements it, writes the address of the following
instruction there, and only then reads its operand and jumps. Rests on log entries 7 and 18. -/
def Obligations.JsrPushesTheReturnAddressThenJumps : Prop :=
  (∀ w x1 x2 : Word, fieldO w = 0x00 → fieldB w = 0x01 → ∃ a, decodeWords w x1 x2 = .jsr a) ∧
  ∀ (a : Mode) (s : State), s.skip = false →
    let r := resolve .a a s.fetched
    let pushed := (r.2.setSp (r.2.sp - 1)).memWrite (r.2.sp - 1) (s.pc + BitVec.ofNat 16 (Instr.jsr a).length)
    r.2.sp ≠ 0 → exec (.jsr a) s = .next (pushed.setPc (readOp r.1 pushed))

/-- R202's table: what `pc` receives where the push itself changes the operand's content, and where it does not.
Rests on log entry 18. -/
def Obligations.JsrReadsItsOperandAfterThePush : Prop :=
  ∀ s : State, s.skip = false →
    (s.sp ≠ 0 →
      ∃ tr tsp tpc tpeek tmem, exec (.jsr (.reg .A)) s = .next tr ∧ tr.pc = s.x .A ∧
        exec (.jsr .sp) s = .next tsp ∧ tsp.pc = s.sp - 1 ∧ tsp.sp = s.sp - 1 ∧
        exec (.jsr .pc) s = .next tpc ∧ tpc.pc = s.pc + 1 ∧ tpc.memRead (s.sp - 1) = s.pc + 1 ∧
        exec (.jsr .peek) s = .next tpeek ∧ tpeek.pc = s.memRead s.sp ∧
        exec (.jsr (.mem (s.sp - 1))) s = .next tmem ∧ tmem.pc = s.pc + 2) ∧
    (s.sp ≠ 0xFFFF →
      ∃ t, exec (.jsr .stack) s = .next t ∧ t.pc = s.pc + 1 ∧ t.sp = s.sp ∧ t.memRead s.sp = s.pc + 1) ∧
    (s.sp = 0xFFFF →
      ∃ t, exec (.jsr .stack) s = .next t ∧ t.status = .halted .stackOverflow ∧ t.sp = 0)

/-- R203, R212: an executing `JSR` whose body starts with `sp = 0` raises `StackOverflow` before anything is written:
`pc` is past the instruction, `sp` is 0, memory and the registers are as before. Rests on log entries 11 and 18. -/
def Obligations.JsrAtZeroStackPointerOverflows : Prop :=
  ∀ (a : Mode) (s : State), s.skip = false → (resolve .a a s.fetched).2.sp = 0 →
    exec (.jsr a) s = .next { passed (.jsr a) s with status := .halted .stackOverflow }

/-- R205: `SET PC, POP` undoes what `JSR` did to `sp` and continues at the pushed address, from any later state that
has `sp` and the pushed word as the call left them. Rests on log entries 15 and 18. -/
def Obligations.ReturnUndoesTheCall : Prop :=
  ∀ (a : Mode) (s t u : State), s.skip = false → (resolve .a a s.fetched).2.sp ≠ 0 →
    exec (.jsr a) s = .next t → u.skip = false → u.sp = t.sp → u.memRead t.sp = t.memRead t.sp →
    ∃ v, exec (.set .pc .stack) u = .next v ∧
      v.pc = s.pc + BitVec.ofNat 16 (Instr.jsr a).length ∧ v.sp = (resolve .a a s.fetched).2.sp ∧
      v.mem = u.mem

/-- R206, R24: a write to `PC` is a jump; `SET` is absolute, `ADD` and `SUB` are relative to the address after the
instruction; a one-word `SUB PC, 1` jumps to itself. Rests on log entry 15. -/
def Obligations.WritesToPcAreJumps : Prop :=
  ∀ (a : Mode) (s : State), s.skip = false →
    let after := s.pc + BitVec.ofNat 16 (1 + a.extra.length)
    let av := readOp (resolve .a a s.fetched).1 (resolve .a a s.fetched).2
    ∃ t u v w, exec (.set .pc a) s = .next t ∧ t.pc = av ∧
      exec (.add .pc a) s = .next u ∧ u.pc = after + av ∧
      exec (.sub .pc a) s = .next v ∧ v.pc = after - av ∧
      exec (.sub .pc (.inline 1)) s = .next w ∧ w.pc = s.pc

/-- R26, R104, R105, R208: a word pushed is the word popped and `sp` comes back, also across the wrap at 0x0000, with
no fault. Rests on log entries 15 and 21. -/
def Obligations.PopReturnsThePushedWord : Prop :=
  ∀ (n : Word) (r : Reg) (s : State), s.skip = false →
    ∃ t u, exec (.set .stack (.lit n)) s = .next t ∧ t.sp = s.sp - 1 ∧ t.memRead (s.sp - 1) = n ∧
      t.status = s.status ∧
      exec (.set (.reg r) .stack) t = .next u ∧ u.x r = n ∧ u.sp = s.sp

/-! ### Unsupported words and the conditions -/

/-- R79, R80, R211: exactly the basic words with `o` from 0x18 and the special words with `s` other than 1 are
unsupported; an executed one raises `UnsupportedInstruction` with the address of its first word, after its operands
were resolved, and changes nothing else; no other dispatch raises it. Rests on log entries 7, 11 and 19. -/
def Obligations.UnsupportedWordsRaiseTheFatalCondition : Prop :=
  (∀ w x1 x2 : Word, isUnsupported (decodeWords w x1 x2) = true ↔
    0x18 ≤ w.toNat % 32 ∨ (w.toNat % 32 = 0 ∧ w.toNat / 32 % 32 ≠ 1)) ∧
  (∀ (i : Instr) (s : State), isUnsupported i = true → s.skip = false →
    exec i s = .next { passed i s with status := .halted (.unsupportedInstruction s.pc) }) ∧
  ∀ (i : Instr) (s t : State) (p : Word), exec i s = .next t → s.status = .running →
    t.status = .halted (.unsupportedInstruction p) → isUnsupported i = true ∧ s.skip = false

/-- R210 to R212, R215: within a dispatch the status changes for these two reasons and no other. Rests on log entries
11, 18, 19 and 20. -/
def Obligations.FatalConditionsHaveNoOtherCause : Prop :=
  ∀ (i : Instr) (s t : State), exec i s = .next t → s.status = .running →
    (∀ p, t.status = .halted (.unsupportedInstruction p) ↔
      s.skip = false ∧ isUnsupported i = true ∧ p = s.pc) ∧
    (t.status = .halted .stackOverflow ↔
      s.skip = false ∧ ∃ a, i = .jsr a ∧ (resolve .a a s.fetched).2.sp = 0) ∧
    t.status ≠ .halted .budgetExhausted

/-! ### Frames -/

/-- R138, R139 for `SET ADD SUB MUL MLI DIV DVI MOD MDI AND BOR XOR SHR ASR SHL` (`writesB`): what they leave
unchanged. The store goes to the word the destination operand names (`storeAddr`). Rests on log entry 16. -/
def Obligations.WritingInstructionsKeepEverythingElse : Prop :=
  ∀ (i : Instr) (s t : State), writesB i = true → exec i s = .next t →
    (∀ r, i.bMode ≠ some (.reg r) → t.x r = s.x r) ∧
    (setsEx i = false → i.bMode ≠ some .ex → t.ex = s.ex) ∧
    (i.bMode ≠ some .sp → t.sp = s.sp + spMoves i) ∧
    (i.bMode ≠ some .pc → t.pc = s.pc + BitVec.ofNat 16 i.length) ∧
    t.skip = false ∧ t.status = s.status ∧ t.limit = s.limit ∧ t.icount = s.icount + 1 ∧
    ∀ k, (∀ p, storeAddr i s = some p → k ≠ byteAddr p ∧ k ≠ byteAddr p + 1) →
      t.mem.readByte k = s.mem.readByte k

/-- R180 for the eight conditionals (`isIf`): they change `pc`, `sp` for a mode 0x18, `icount` and `skip`, and nothing else;
no byte of memory. -/
def Obligations.ConditionalsWriteNothingButSkip : Prop :=
  ∀ (i : Instr) (s t : State), isIf i = true → exec i s = .next t →
    t = { passed i s with skip := t.skip } ∧ ∀ k, t.mem.readByte k = s.mem.readByte k

/-- R139, R200 for `JSR`: registers, `ex`, LIMIT and every byte but the pushed word stay; `skip` ends clear; the
status changes only by a stack overflow. Rests on log entry 18. -/
def Obligations.JsrKeepsEverythingElse : Prop :=
  ∀ (a : Mode) (s t : State), exec (.jsr a) s = .next t →
    (∀ r, t.x r = s.x r) ∧ t.ex = s.ex ∧ t.skip = false ∧ t.limit = s.limit ∧ t.icount = s.icount + 1 ∧
    (t.status = s.status ∨ t.status = .halted .stackOverflow) ∧
    (t.sp = s.sp + spMoves (.jsr a) ∨ storeAddr (.jsr a) s = some t.sp) ∧
    ∀ k, (∀ p, storeAddr (.jsr a) s = some p → k ≠ byteAddr p ∧ k ≠ byteAddr p + 1) →
      t.mem.readByte k = s.mem.readByte k

/-- R28, R139: `ex` changes only when an instruction of R28's list executes or a writing one names `EX` as its
destination. Rests on log entry 16. -/
def Obligations.ExChangesOnlyByTheListedInstructions : Prop :=
  ∀ (i : Instr) (s t : State), exec i s = .next t → t.ex ≠ s.ex →
    s.skip = false ∧ (setsEx i = true ∨ (writesB i = true ∧ i.bMode = some .ex))

/-- R138: with `b = EX` the destination write comes after the side effect, so `ex` ends as the result. Rests on log
entry 15. -/
def Obligations.DestinationExOverridesTheSideEffect : Prop :=
  ∀ (i : Instr) (s : State) (u : BasicUse), s.skip = false → i.bMode = some .ex → writesB i = true →
    basicUse i = some u →
    ∃ t, exec i s = .next t ∧ u.result s.ex (operandsOf .ex i.aMode s).av = some t.ex

/-- R60, R139: the memory after a dispatch is the memory before it with the writes of R60's access list applied; the
list reads each of the instruction's words first, in order, and holds at most one write and at most six accesses.
Rests on log entries 23 and 24. -/
def Obligations.MemoryChangesByTheListedAccesses : Prop :=
  ∀ (i : Instr) (s t : State), exec i s = .next t →
    t.mem = applyAccesses s.mem (accesses i s) ∧
    (accesses i s).take i.length = fetchAccesses i s ∧ (accesses i s).length ≤ 6 ∧
    ((accesses i s).filter fun x => match x with
      | .write _ _ => true
      | .read _ => false).length ≤ 1

/-- R21: no instruction reads or writes a general register its operands do not name: changing that register beforehand
changes it, and nothing else, afterwards. -/
def Obligations.UnnamedRegistersHaveNoInfluence : Prop :=
  ∀ (i : Instr) (r : Reg) (v : Word) (s t : State), namesReg i r = false → exec i s = .next t →
    exec i (s.setX r v) = .next (t.setX r v)

/-- R32, R33: no instruction reads `icount`, LIMIT or the status. Whatever they were, the dispatch does the same to all
else, and it raises the same condition (`raised`) or none, in which case the status stays. Rests on log entries 5, 11
and 20. -/
def Obligations.InstructionsNeverReadTheBookkeeping : Prop :=
  ∀ (i : Instr) (s t : State), exec i s = .next t →
    ∃ raised : Option HaltCause, t.status = raised.elim s.status .halted ∧
      ∀ (n : Nat) (l : Option Nat) (c : Status),
        exec i { s with icount := n, limit := l, status := c } =
          .next { t with icount := n + 1, limit := l, status := raised.elim c .halted }

/-! ### What resolution may touch, and where `ex` is read -/

/-- R100: on every 6-bit mode code and whatever its extra word, resolution writes nothing but `pc`, for the extra-word
modes, and `sp`, for mode 0x18; the hint matters only for mode 0x18; `ex`, `skip` and the bookkeeping are not read. -/
def Obligations.ResolutionTouchesOnlyPcAndSp : Prop :=
  ∀ (m : BitVec 6) (n : Word) (h : Hint) (s : State),
    let r := resolve h (decodeMode m n) s
    r.2 = { s with pc := r.2.pc, sp := r.2.sp } ∧
    (needsExtra m = false → r.2.pc = s.pc) ∧
    (m ≠ 0x18 → r.2.sp = s.sp ∧ ∀ h', resolve h' (decodeMode m n) s = r) ∧
    ∀ (e : Word) (k : Bool) (c : Status) (d : Nat) (l : Option Nat),
      resolve h (decodeMode m n) { s with ex := e, skip := k, status := c, icount := d, limit := l } =
        (r.1, { r.2 with ex := e, skip := k, status := c, icount := d, limit := l })

/-- R27, R28, R138: mode 0x1d names `ex` itself, to read and to write; an instruction that does not name it, a
conditional among them, never reads it: with any other value in `ex` beforehand all else ends the same, and `ex` ends as
the same side effect where the instruction executes one and as that value where not. R27 says it of the conditionals;
for the others it follows from their rules. Rests on log entries 15 and 16. -/
def Obligations.ExIsReadOnlyWhereItIsNamed : Prop :=
  (∀ (h : Hint) (n v : Word) (s : State), resolve h (decodeMode 0x1d n) s = (.ex, s) ∧
    readOp .ex s = s.ex ∧ writeOp .ex v s = { s with ex := v }) ∧
  ∀ (i : Instr) (v : Word) (s t : State), i.bMode ≠ some .ex → i.aMode ≠ .ex → exec i s = .next t →
    exec i (s.setEx v) = .next (t.setEx (if setsEx i = true ∧ s.skip = false then t.ex else v))
end

