-- ==== Sys2Proof/Laws/State.lean ====
section
/-! SUPPORT. One lemma per field per update of the state, true by rfl, so that no later proof unfolds a record update. -/

namespace Sys2Proof.Machine

variable (s : State)

/-! `setX` -/

@[simp] theorem setX_regs (r : Reg) (v : Word) : (s.setX r v).regs = s.regs.set r v := rfl
@[simp] theorem setX_pc (r : Reg) (v : Word) : (s.setX r v).pc = s.pc := rfl
@[simp] theorem setX_sp (r : Reg) (v : Word) : (s.setX r v).sp = s.sp := rfl
@[simp] theorem setX_ex (r : Reg) (v : Word) : (s.setX r v).ex = s.ex := rfl
@[simp] theorem setX_skip (r : Reg) (v : Word) : (s.setX r v).skip = s.skip := rfl
@[simp] theorem setX_status (r : Reg) (v : Word) : (s.setX r v).status = s.status := rfl
@[simp] theorem setX_icount (r : Reg) (v : Word) : (s.setX r v).icount = s.icount := rfl
@[simp] theorem setX_limit (r : Reg) (v : Word) : (s.setX r v).limit = s.limit := rfl
@[simp] theorem setX_mem (r : Reg) (v : Word) : (s.setX r v).mem = s.mem := rfl
@[simp] theorem setX_memRead (r : Reg) (v : Word) (p : Word) : (s.setX r v).memRead p = s.memRead p := rfl

/-! `setSp` -/

@[simp] theorem setSp_regs (v : Word) : (s.setSp v).regs = s.regs := rfl
@[simp] theorem setSp_pc (v : Word) : (s.setSp v).pc = s.pc := rfl
@[simp] theorem setSp_sp (v : Word) : (s.setSp v).sp = v := rfl
@[simp] theorem setSp_ex (v : Word) : (s.setSp v).ex = s.ex := rfl
@[simp] theorem setSp_skip (v : Word) : (s.setSp v).skip = s.skip := rfl
@[simp] theorem setSp_status (v : Word) : (s.setSp v).status = s.status := rfl
@[simp] theorem setSp_icount (v : Word) : (s.setSp v).icount = s.icount := rfl
@[simp] theorem setSp_limit (v : Word) : (s.setSp v).limit = s.limit := rfl
@[simp] theorem setSp_mem (v : Word) : (s.setSp v).mem = s.mem := rfl
@[simp] theorem setSp_x (v : Word) (q : Reg) : (s.setSp v).x q = s.x q := rfl
@[simp] theorem setSp_memRead (v : Word) (p : Word) : (s.setSp v).memRead p = s.memRead p := rfl

/-! `setPc` -/

@[simp] theorem setPc_regs (v : Word) : (s.setPc v).regs = s.regs := rfl
@[simp] theorem setPc_pc (v : Word) : (s.setPc v).pc = v := rfl
@[simp] theorem setPc_sp (v : Word) : (s.setPc v).sp = s.sp := rfl
@[simp] theorem setPc_ex (v : Word) : (s.setPc v).ex = s.ex := rfl
@[simp] theorem setPc_skip (v : Word) : (s.setPc v).skip = s.skip := rfl
@[simp] theorem setPc_status (v : Word) : (s.setPc v).status = s.status := rfl
@[simp] theorem setPc_icount (v : Word) : (s.setPc v).icount = s.icount := rfl
@[simp] theorem setPc_limit (v : Word) : (s.setPc v).limit = s.limit := rfl
@[simp] theorem setPc_mem (v : Word) : (s.setPc v).mem = s.mem := rfl
@[simp] theorem setPc_x (v : Word) (q : Reg) : (s.setPc v).x q = s.x q := rfl
@[simp] theorem setPc_memRead (v : Word) (p : Word) : (s.setPc v).memRead p = s.memRead p := rfl

/-! `setEx` -/

@[simp] theorem setEx_regs (v : Word) : (s.setEx v).regs = s.regs := rfl
@[simp] theorem setEx_pc (v : Word) : (s.setEx v).pc = s.pc := rfl
@[simp] theorem setEx_sp (v : Word) : (s.setEx v).sp = s.sp := rfl
@[simp] theorem setEx_ex (v : Word) : (s.setEx v).ex = v := rfl
@[simp] theorem setEx_skip (v : Word) : (s.setEx v).skip = s.skip := rfl
@[simp] theorem setEx_status (v : Word) : (s.setEx v).status = s.status := rfl
@[simp] theorem setEx_icount (v : Word) : (s.setEx v).icount = s.icount := rfl
@[simp] theorem setEx_limit (v : Word) : (s.setEx v).limit = s.limit := rfl
@[simp] theorem setEx_mem (v : Word) : (s.setEx v).mem = s.mem := rfl
@[simp] theorem setEx_x (v : Word) (q : Reg) : (s.setEx v).x q = s.x q := rfl
@[simp] theorem setEx_memRead (v : Word) (p : Word) : (s.setEx v).memRead p = s.memRead p := rfl

/-! `setSkip` -/

@[simp] theorem setSkip_regs (v : Bool) : (s.setSkip v).regs = s.regs := rfl
@[simp] theorem setSkip_pc (v : Bool) : (s.setSkip v).pc = s.pc := rfl
@[simp] theorem setSkip_sp (v : Bool) : (s.setSkip v).sp = s.sp := rfl
@[simp] theorem setSkip_ex (v : Bool) : (s.setSkip v).ex = s.ex := rfl
@[simp] theorem setSkip_skip (v : Bool) : (s.setSkip v).skip = v := rfl
@[simp] theorem setSkip_status (v : Bool) : (s.setSkip v).status = s.status := rfl
@[simp] theorem setSkip_icount (v : Bool) : (s.setSkip v).icount = s.icount := rfl
@[simp] theorem setSkip_limit (v : Bool) : (s.setSkip v).limit = s.limit := rfl
@[simp] theorem setSkip_mem (v : Bool) : (s.setSkip v).mem = s.mem := rfl
@[simp] theorem setSkip_x (v : Bool) (q : Reg) : (s.setSkip v).x q = s.x q := rfl
@[simp] theorem setSkip_memRead (v : Bool) (p : Word) : (s.setSkip v).memRead p = s.memRead p := rfl

/-! `setStatus` -/

@[simp] theorem setStatus_regs (v : Status) : (s.setStatus v).regs = s.regs := rfl
@[simp] theorem setStatus_pc (v : Status) : (s.setStatus v).pc = s.pc := rfl
@[simp] theorem setStatus_sp (v : Status) : (s.setStatus v).sp = s.sp := rfl
@[simp] theorem setStatus_ex (v : Status) : (s.setStatus v).ex = s.ex := rfl
@[simp] theorem setStatus_skip (v : Status) : (s.setStatus v).skip = s.skip := rfl
@[simp] theorem setStatus_status (v : Status) : (s.setStatus v).status = v := rfl
@[simp] theorem setStatus_icount (v : Status) : (s.setStatus v).icount = s.icount := rfl
@[simp] theorem setStatus_limit (v : Status) : (s.setStatus v).limit = s.limit := rfl
@[simp] theorem setStatus_mem (v : Status) : (s.setStatus v).mem = s.mem := rfl
@[simp] theorem setStatus_x (v : Status) (q : Reg) : (s.setStatus v).x q = s.x q := rfl
@[simp] theorem setStatus_memRead (v : Status) (p : Word) : (s.setStatus v).memRead p = s.memRead p := rfl

/-! `memWrite` -/

@[simp] theorem memWrite_regs (a v : Word) : (s.memWrite a v).regs = s.regs := rfl
@[simp] theorem memWrite_pc (a v : Word) : (s.memWrite a v).pc = s.pc := rfl
@[simp] theorem memWrite_sp (a v : Word) : (s.memWrite a v).sp = s.sp := rfl
@[simp] theorem memWrite_ex (a v : Word) : (s.memWrite a v).ex = s.ex := rfl
@[simp] theorem memWrite_skip (a v : Word) : (s.memWrite a v).skip = s.skip := rfl
@[simp] theorem memWrite_status (a v : Word) : (s.memWrite a v).status = s.status := rfl
@[simp] theorem memWrite_icount (a v : Word) : (s.memWrite a v).icount = s.icount := rfl
@[simp] theorem memWrite_limit (a v : Word) : (s.memWrite a v).limit = s.limit := rfl
@[simp] theorem memWrite_mem (a v : Word) : (s.memWrite a v).mem = s.mem.write a v := rfl
@[simp] theorem memWrite_x (a v : Word) (q : Reg) : (s.memWrite a v).x q = s.x q := rfl

/-! `advance` -/

@[simp] theorem advance_regs : (s.advance).regs = s.regs := rfl
@[simp] theorem advance_pc : (s.advance).pc = s.pc + 1 := rfl
@[simp] theorem advance_sp : (s.advance).sp = s.sp := rfl
@[simp] theorem advance_ex : (s.advance).ex = s.ex := rfl
@[simp] theorem advance_skip : (s.advance).skip = s.skip := rfl
@[simp] theorem advance_status : (s.advance).status = s.status := rfl
@[simp] theorem advance_icount : (s.advance).icount = s.icount := rfl
@[simp] theorem advance_limit : (s.advance).limit = s.limit := rfl
@[simp] theorem advance_mem : (s.advance).mem = s.mem := rfl
@[simp] theorem advance_x (q : Reg) : (s.advance).x q = s.x q := rfl
@[simp] theorem advance_memRead (p : Word) : (s.advance).memRead p = s.memRead p := rfl

/-! `fetched` -/

@[simp] theorem fetched_regs : (s.fetched).regs = s.regs := rfl
@[simp] theorem fetched_pc : (s.fetched).pc = s.pc + 1 := rfl
@[simp] theorem fetched_sp : (s.fetched).sp = s.sp := rfl
@[simp] theorem fetched_ex : (s.fetched).ex = s.ex := rfl
@[simp] theorem fetched_skip : (s.fetched).skip = s.skip := rfl
@[simp] theorem fetched_status : (s.fetched).status = s.status := rfl
@[simp] theorem fetched_icount : (s.fetched).icount = s.icount + 1 := rfl
@[simp] theorem fetched_limit : (s.fetched).limit = s.limit := rfl
@[simp] theorem fetched_mem : (s.fetched).mem = s.mem := rfl
@[simp] theorem fetched_x (q : Reg) : (s.fetched).x q = s.x q := rfl
@[simp] theorem fetched_memRead (p : Word) : (s.fetched).memRead p = s.memRead p := rfl

/-! `withLimit` -/

@[simp] theorem withLimit_regs (l : Option Nat) : (s.withLimit l).regs = s.regs := rfl
@[simp] theorem withLimit_pc (l : Option Nat) : (s.withLimit l).pc = s.pc := rfl
@[simp] theorem withLimit_sp (l : Option Nat) : (s.withLimit l).sp = s.sp := rfl
@[simp] theorem withLimit_ex (l : Option Nat) : (s.withLimit l).ex = s.ex := rfl
@[simp] theorem withLimit_skip (l : Option Nat) : (s.withLimit l).skip = s.skip := rfl
@[simp] theorem withLimit_status (l : Option Nat) : (s.withLimit l).status = s.status := rfl
@[simp] theorem withLimit_icount (l : Option Nat) : (s.withLimit l).icount = s.icount := rfl
@[simp] theorem withLimit_limit (l : Option Nat) : (s.withLimit l).limit = l := rfl
@[simp] theorem withLimit_mem (l : Option Nat) : (s.withLimit l).mem = s.mem := rfl
@[simp] theorem withLimit_x (l : Option Nat) (q : Reg) : (s.withLimit l).x q = s.x q := rfl
@[simp] theorem withLimit_memRead (l : Option Nat) (p : Word) : (s.withLimit l).memRead p = s.memRead p := rfl

/-! Registers -/

@[simp] theorem regs_get_set (x : Regs) (r q : Reg) (v : Word) :
    (x.set r v).get q = if q = r then v else x.get q := by
  cases r <;> cases q <;> rfl

@[simp] theorem setX_x (r q : Reg) (v : Word) : (s.setX r v).x q = if q = r then v else s.x q :=
  regs_get_set s.regs r q v

/-- Writing a register with what it holds changes nothing. -/
@[simp] theorem setX_self (r : Reg) : s.setX r (s.x r) = s := by
  cases r <;> rfl

/-- Two register files that read alike are equal. -/
theorem regs_ext_get (x y : Regs) (h : ∀ r, x.get r = y.get r) : x = y := by
  have hA := h .A; have hB := h .B; have hC := h .C; have hX := h .X
  have hY := h .Y; have hZ := h .Z; have hI := h .I; have hJ := h .J
  cases x; cases y
  simp only [Regs.get] at hA hB hC hX hY hZ hI hJ
  subst hA hB hC hX hY hZ hI hJ
  rfl

/-! `raise` -/

@[simp] theorem raise_eq (c : HaltCause) : raise c s = s.setStatus (.halted c) := rfl

end Sys2Proof.Machine
end

