-- ==== Sys2Proof/Laws/Memory.lean ====
section
/-! SUPPORT. The laws of memory: a read after a write gives what was written, every other address keeps its byte, and
every memory operation keeps the canonical form. The read laws hold for any list, canonical or not. -/

namespace Sys2Proof.Machine

/-! ### Bytes: read after write -/

theorem readByte_erase (m : Memory) (k j : Nat) :
    (m.erase k).readByte j = if j = k then Params.fillByte else m.readByte j := by
  induction m with
  | nil => simp [Memory.erase, Memory.readByte]
  | cons c rest ih =>
    obtain ⟨i, v⟩ := c
    simp only [Memory.erase, Memory.readByte]
    split_ifs with h1 h2 h3 <;> simp_all [Memory.readByte]

theorem readByte_insert (m : Memory) (k j : Nat) (v : Byte) (h : m.readByte k = Params.fillByte)
    (hm : m.erase k = m) : (m.insert k v).readByte j = if j = k then v else m.readByte j := by
  induction m with
  | nil => simp [Memory.insert, Memory.readByte, eq_comm]
  | cons c rest ih =>
    obtain ⟨i, u⟩ := c
    have hne : i ≠ k := by
      rintro rfl
      simp only [Memory.erase, if_true] at hm
      have hlen : ∀ (l : Memory), (l.erase i).length ≤ l.length := by
        intro l
        induction l with
        | nil => simp [Memory.erase]
        | cons d ds ihd =>
          obtain ⟨a, b⟩ := d
          simp only [Memory.erase]
          split_ifs <;> simp <;> omega
      have := hlen rest
      rw [hm] at this
      simp at this
    simp only [Memory.erase, if_neg hne, List.cons.injEq, true_and] at hm
    simp only [Memory.readByte, if_neg hne] at h
    simp only [Memory.insert]
    split_ifs with h1 h2 h2
    · simp [Memory.readByte, h2]
    · simp [Memory.readByte, Ne.symm h2]
    · rw [Memory.readByte, if_neg (h2 ▸ hne), ih h hm, if_pos h2]
    · simp only [Memory.readByte, ih h hm, if_neg h2]

theorem erase_erase (m : Memory) (k : Nat) : (m.erase k).erase k = m.erase k := by
  induction m with
  | nil => rfl
  | cons c rest ih =>
    obtain ⟨i, v⟩ := c
    simp only [Memory.erase]
    split_ifs with h
    · exact ih
    · simp [Memory.erase, h, ih]

@[simp] theorem readByte_writeByte (m : Memory) (k j : Nat) (v : Byte) :
    (m.writeByte k v).readByte j = if j = k then v else m.readByte j := by
  unfold Memory.writeByte
  split_ifs with h h2 h2
  · simp [readByte_erase, h, h2]
  · simp [readByte_erase, h2]
  · rw [readByte_insert _ _ _ _ (by simp [readByte_erase]) (erase_erase m k)]; simp [h2]
  · rw [readByte_insert _ _ _ _ (by simp [readByte_erase]) (erase_erase m k)]
    simp [h2, readByte_erase]

/-! ### Words: read after write -/

theorem byteAddr_inj {a b : Word} (h : byteAddr a = byteAddr b) : a = b := by
  unfold byteAddr at h
  exact BitVec.eq_of_toNat_eq (by omega)

theorem append_halves (v : Word) : (v.extractLsb' 8 8 ++ v.extractLsb' 0 8 : Word) = v := by
  ext i hi
  simp only [BitVec.getElem_append, BitVec.getElem_extractLsb', Nat.zero_add]
  split_ifs with h
  · exact (BitVec.getLsbD_eq_getElem hi)
  · rw [show 8 + (i - 8) = i by omega]
    exact (BitVec.getLsbD_eq_getElem hi)

/-- The byte of memory at `k` after a word is stored at `a`. -/
theorem readByte_write (m : Memory) (a v : Word) (k : Nat) :
    (m.write a v).readByte k =
      if k = byteAddr a + 1 then v.extractLsb' 0 8
      else if k = byteAddr a then v.extractLsb' 8 8 else m.readByte k := by
  simp [Memory.write]

/-- A store of a word leaves every byte outside that word alone. -/
theorem readByte_write_of_ne (m : Memory) (a v : Word) (k : Nat) (h0 : k ≠ byteAddr a)
    (h1 : k ≠ byteAddr a + 1) : (m.write a v).readByte k = m.readByte k := by
  simp [readByte_write, h0, h1]

@[simp] theorem read_write (m : Memory) (a b v : Word) :
    (m.write a v).read b = if b = a then v else m.read b := by
  by_cases h : b = a
  · subst h
    simp [Memory.read, readByte_write, append_halves]
  · have hb : byteAddr b ≠ byteAddr a := fun e => h (byteAddr_inj e)
    have e1 : byteAddr b ≠ byteAddr a + 1 := by unfold byteAddr; omega
    have e2 : byteAddr b + 1 ≠ byteAddr a := by unfold byteAddr; omega
    simp [Memory.read, readByte_write, h, hb, e1, e2]

@[simp] theorem memWrite_memRead (s : State) (a b v : Word) :
    (s.memWrite a v).memRead b = if b = a then v else s.memRead b :=
  read_write s.mem a b v

/-! ### The canonical form -/

theorem wfFrom_mono {lo lo' : Nat} (h : lo' ≤ lo) (m : Memory) (hm : Memory.wfFrom lo m = true) :
    Memory.wfFrom lo' m = true := by
  cases m with
  | nil => rfl
  | cons c rest =>
    simp only [Memory.wfFrom, Bool.and_eq_true, decide_eq_true_eq] at hm ⊢
    exact ⟨⟨⟨by omega, hm.1.1.2⟩, hm.1.2⟩, hm.2⟩

theorem wfFrom_erase (m : Memory) (k lo : Nat) (hm : Memory.wfFrom lo m = true) :
    Memory.wfFrom lo (m.erase k) = true := by
  induction m generalizing lo with
  | nil => rfl
  | cons c rest ih =>
    obtain ⟨i, v⟩ := c
    simp only [Memory.wfFrom, Bool.and_eq_true, decide_eq_true_eq] at hm
    simp only [Memory.erase]
    split_ifs with h
    · exact wfFrom_mono (by omega) _ (ih (i + 1) hm.2)
    · simp only [Memory.wfFrom, Bool.and_eq_true, decide_eq_true_eq]
      exact ⟨hm.1, ih (i + 1) hm.2⟩

theorem wfFrom_insert (m : Memory) (k lo : Nat) (v : Byte) (hm : Memory.wfFrom lo m = true)
    (hu : ∀ c ∈ m, c.1 ≠ k) (hlo : lo ≤ k) (hk : k < Memory.size) (hv : v ≠ Params.fillByte) :
    Memory.wfFrom lo (m.insert k v) = true := by
  induction m generalizing lo with
  | nil => simp [Memory.insert, Memory.wfFrom, hlo, hk, hv]
  | cons c rest ih =>
    obtain ⟨i, u⟩ := c
    have hik : i ≠ k := hu (i, u) (by simp)
    simp only [Memory.wfFrom, Bool.and_eq_true, decide_eq_true_eq] at hm
    simp only [Memory.insert]
    split_ifs with h
    · simp only [Memory.wfFrom, Bool.and_eq_true, decide_eq_true_eq]
      exact ⟨⟨⟨hlo, hk⟩, hv⟩, ⟨⟨by omega, hm.1.1.2⟩, hm.1.2⟩, hm.2⟩
    · simp only [Memory.wfFrom, Bool.and_eq_true, decide_eq_true_eq]
      exact ⟨hm.1, ih (i + 1) hm.2 (fun c hc => hu c (by simp [hc])) (by omega)⟩

theorem not_mem_erase (m : Memory) (k : Nat) : ∀ c ∈ m.erase k, c.1 ≠ k := by
  induction m with
  | nil => simp [Memory.erase]
  | cons c rest ih =>
    obtain ⟨i, v⟩ := c
    simp only [Memory.erase]
    split_ifs with h
    · exact ih
    · intro d hd
      rcases List.mem_cons.mp hd with rfl | hd
      · exact h
      · exact ih d hd

theorem wf_writeByte (m : Memory) (k : Nat) (v : Byte) (hk : k < Memory.size) (hm : m.wf = true) :
    (m.writeByte k v).wf = true := by
  unfold Memory.writeByte Memory.wf at *
  split_ifs with h
  · exact wfFrom_erase m k 0 hm
  · exact wfFrom_insert _ k 0 v (wfFrom_erase m k 0 hm) (not_mem_erase m k) (by omega) hk h

theorem byteAddr_lt (a : Word) : byteAddr a + 1 < Memory.size := by
  have := a.isLt
  unfold byteAddr Memory.size Config.memWords
  omega

/-- A store of a word keeps the canonical form. -/
theorem wf_write (m : Memory) (a v : Word) (hm : m.wf = true) : (m.write a v).wf = true :=
  wf_writeByte _ _ _ (byteAddr_lt a) (wf_writeByte _ _ _ (by have := byteAddr_lt a; omega) hm)

/-- Loading an image keeps the canonical form. -/
theorem wf_load (ws : List Word) (m : Memory) (a : Word) (hm : m.wf = true) :
    (m.load a ws).wf = true := by
  induction ws generalizing m a with
  | nil => exact hm
  | cons w ws ih => exact ih _ _ (wf_write m a w hm)

/-- The reset memory is canonical. -/
theorem wf_reset : State.reset.mem.wf = true := rfl

/-- Canonical memories that read alike at every byte are equal lists. -/
theorem wf_ext_from (lo : Nat) (m n : Memory) (hm : Memory.wfFrom lo m = true)
    (hn : Memory.wfFrom lo n = true) (h : ∀ k, m.readByte k = n.readByte k) : m = n := by
  have low : ∀ (l : Memory) (lo' k : Nat), Memory.wfFrom lo' l = true → k < lo' →
      l.readByte k = Params.fillByte := by
    intro l
    induction l with
    | nil => intros; rfl
    | cons c rest ih =>
      obtain ⟨i, v⟩ := c
      intro lo' k hl hk
      simp only [Memory.wfFrom, Bool.and_eq_true, decide_eq_true_eq] at hl
      simp only [Memory.readByte]
      rw [if_neg (by omega)]
      exact ih (i + 1) k hl.2 (by omega)
  induction m generalizing n lo with
  | nil =>
    cases n with
    | nil => rfl
    | cons c rest =>
      obtain ⟨i, v⟩ := c
      simp only [Memory.wfFrom, Bool.and_eq_true, decide_eq_true_eq] at hn
      have := h i
      simp [Memory.readByte] at this
      exact absurd this.symm hn.1.2
  | cons c rest ih =>
    obtain ⟨i, v⟩ := c
    have hm' := hm
    simp only [Memory.wfFrom, Bool.and_eq_true, decide_eq_true_eq] at hm'
    cases n with
    | nil =>
      have := h i
      simp [Memory.readByte] at this
      exact absurd this hm'.1.2
    | cons d rest' =>
      obtain ⟨j, u⟩ := d
      have hn' := hn
      simp only [Memory.wfFrom, Bool.and_eq_true, decide_eq_true_eq] at hn'
      rcases Nat.lt_trichotomy i j with hij | hij | hij
      · have hi := h i
        simp only [Memory.readByte, if_true] at hi
        rw [if_neg (by omega), low rest' (j + 1) i hn'.2 (by omega)] at hi
        exact absurd hi hm'.1.2
      · subst hij
        have hi := h i
        simp only [Memory.readByte, if_true] at hi
        subst hi
        have hrest : rest = rest' := by
          refine ih (i + 1) rest' hm'.2 hn'.2 fun k => ?_
          have hk := h k
          simp only [Memory.readByte] at hk
          split_ifs at hk with e
          · subst e
            rw [low rest (i + 1) i hm'.2 (by omega), low rest' (i + 1) i hn'.2 (by omega)]
          · exact hk
        rw [hrest]
      · have hj := h j
        simp only [Memory.readByte, if_true] at hj
        rw [if_neg (by omega), low rest (i + 1) j hm'.2 (by omega)] at hj
        exact absurd hj.symm hn'.1.2

theorem wf_ext (m n : Memory) (hm : m.wf = true) (hn : n.wf = true)
    (h : ∀ k, m.readByte k = n.readByte k) : m = n :=
  wf_ext_from 0 m n hm hn h

end Sys2Proof.Machine
end

