-- ==== Sys2Proof/Laws/Operands.lean ====
section
/-! SUPPORT. What the resolver, `Read`, `Write` and a dispatch do, said once each. -/

namespace Sys2Proof.Machine

/-! ### The resolver -/

section Resolve
variable (h : Hint) (m : Mode) (s : State)

@[simp] theorem resolve_regs : (resolve h m s).2.regs = s.regs := by cases m <;> cases h <;> rfl
@[simp] theorem resolve_x (r : Reg) : (resolve h m s).2.x r = s.x r := by cases m <;> cases h <;> rfl
@[simp] theorem resolve_ex : (resolve h m s).2.ex = s.ex := by cases m <;> cases h <;> rfl
@[simp] theorem resolve_skip : (resolve h m s).2.skip = s.skip := by cases m <;> cases h <;> rfl
@[simp] theorem resolve_status : (resolve h m s).2.status = s.status := by cases m <;> cases h <;> rfl
@[simp] theorem resolve_icount : (resolve h m s).2.icount = s.icount := by cases m <;> cases h <;> rfl
@[simp] theorem resolve_limit : (resolve h m s).2.limit = s.limit := by cases m <;> cases h <;> rfl
@[simp] theorem resolve_mem : (resolve h m s).2.mem = s.mem := by cases m <;> cases h <;> rfl
@[simp] theorem resolve_memRead (a : Word) : (resolve h m s).2.memRead a = s.memRead a := by
  cases m <;> cases h <;> rfl

/-- `pc` moves past the extra word, if there is one (R114, R116). -/
@[simp] theorem resolve_pc : (resolve h m s).2.pc = s.pc + BitVec.ofNat 16 m.extra.length := by
  cases m <;> cases h <;> simp [resolve, Mode.extra]

end Resolve

@[simp] theorem resolve_sp (h : Hint) (m : Mode) (s : State) : (resolve h m s).2.sp = s.sp + spMove h m := by
  cases m <;> cases h <;> simp [resolve, spMove, BitVec.sub_eq_add_neg]

section Both
variable (b a : Mode) (s : State)

@[simp] theorem resolveBoth_regs : (resolveBoth b a s).st.regs = s.regs := by simp [resolveBoth]
@[simp] theorem resolveBoth_x (r : Reg) : (resolveBoth b a s).st.x r = s.x r := by simp [resolveBoth]
@[simp] theorem resolveBoth_ex : (resolveBoth b a s).st.ex = s.ex := by simp [resolveBoth]
@[simp] theorem resolveBoth_skip : (resolveBoth b a s).st.skip = s.skip := by simp [resolveBoth]
@[simp] theorem resolveBoth_status : (resolveBoth b a s).st.status = s.status := by simp [resolveBoth]
@[simp] theorem resolveBoth_icount : (resolveBoth b a s).st.icount = s.icount := by simp [resolveBoth]
@[simp] theorem resolveBoth_limit : (resolveBoth b a s).st.limit = s.limit := by simp [resolveBoth]
@[simp] theorem resolveBoth_mem : (resolveBoth b a s).st.mem = s.mem := by simp [resolveBoth]
@[simp] theorem resolveBoth_memRead (p : Word) : (resolveBoth b a s).st.memRead p = s.memRead p := by
  simp [resolveBoth]
@[simp] theorem resolveBoth_pc : (resolveBoth b a s).st.pc =
    s.pc + BitVec.ofNat 16 b.extra.length + BitVec.ofNat 16 a.extra.length := by simp [resolveBoth]
@[simp] theorem resolveBoth_sp : (resolveBoth b a s).st.sp = s.sp + spMove .b b + spMove .a a := by
  simp [resolveBoth]

end Both

/-- A destination is general register `r` exactly when its mode names it. -/
theorem resolve_fst_reg {h : Hint} {m : Mode} {s : State} {r : Reg} :
    (resolve h m s).1 = .reg r ↔ m = .reg r := by
  cases m <;> cases h <;> simp [resolve]

theorem resolve_fst_sp {h : Hint} {m : Mode} {s : State} : (resolve h m s).1 = .sp ↔ m = .sp := by
  cases m <;> cases h <;> simp [resolve]

theorem resolve_fst_pc {h : Hint} {m : Mode} {s : State} : (resolve h m s).1 = .pc ↔ m = .pc := by
  cases m <;> cases h <;> simp [resolve]

theorem resolve_fst_ex {h : Hint} {m : Mode} {s : State} : (resolve h m s).1 = .ex ↔ m = .ex := by
  cases m <;> cases h <;> simp [resolve]

/-! ### `Write` -/

section Write
variable (o : Operand) (v : Word) (s : State)

@[simp] theorem writeOp_skip : (writeOp o v s).skip = s.skip := by cases o <;> rfl
@[simp] theorem writeOp_status : (writeOp o v s).status = s.status := by cases o <;> rfl
@[simp] theorem writeOp_icount : (writeOp o v s).icount = s.icount := by cases o <;> rfl
@[simp] theorem writeOp_limit : (writeOp o v s).limit = s.limit := by cases o <;> rfl

theorem writeOp_x (r : Reg) : (writeOp o v s).x r = if o = .reg r then v else s.x r := by
  cases o <;> simp [writeOp, eq_comm]

theorem writeOp_sp : (writeOp o v s).sp = if o = .sp then v else s.sp := by cases o <;> simp [writeOp]
theorem writeOp_pc : (writeOp o v s).pc = if o = .pc then v else s.pc := by cases o <;> simp [writeOp]
theorem writeOp_ex : (writeOp o v s).ex = if o = .ex then v else s.ex := by cases o <;> simp [writeOp]

/-- `Write` stores at most the word its operand names. -/
theorem writeOp_mem : (writeOp o v s).mem = match o.memAddr with
    | some p => s.mem.write p v
    | none => s.mem := by
  cases o <;> rfl

theorem writeOp_memRead (p : Word) :
    (writeOp o v s).memRead p = if o = .mem p then v else s.memRead p := by
  cases o <;> simp [writeOp, eq_comm]

end Write

/-- Reading an operand back after writing it: a literal keeps its value, every location gives what was written. -/
theorem readOp_writeOp (o : Operand) (v : Word) (s : State) :
    readOp o (writeOp o v s) = match o with
      | .lit n => n
      | .reg _ | .sp | .pc | .ex | .mem _ => v := by
  cases o <;> simp [readOp, writeOp]

/-! ### A dispatch -/

/-- A skipped basic instruction: its operands are resolved, `skip` is cleared, the body does not run (R136). -/
theorem dispatchBasic_skipped (body : Operand → Operand → State → State) (b a : Mode) (s : State)
    (h : s.skip = true) :
    dispatchBasic body b a s = .next ((resolveBoth b a s.fetched).st.setSkip false) := by
  simp [dispatchBasic, h]

/-- An executed basic instruction: the body runs on the resolved operands (R135). -/
theorem dispatchBasic_executed (body : Operand → Operand → State → State) (b a : Mode) (s : State)
    (h : s.skip = false) :
    dispatchBasic body b a s =
      .next (body (resolveBoth b a s.fetched).b (resolveBoth b a s.fetched).a
        (resolveBoth b a s.fetched).st) := by
  simp [dispatchBasic, h]

theorem dispatchSpecial_skipped (body : Operand → State → State) (a : Mode) (s : State)
    (h : s.skip = true) :
    dispatchSpecial body a s = .next ((resolve .a a s.fetched).2.setSkip false) := by
  simp [dispatchSpecial, h]

theorem dispatchSpecial_executed (body : Operand → State → State) (a : Mode) (s : State)
    (h : s.skip = false) :
    dispatchSpecial body a s =
      .next (body (resolve .a a s.fetched).1 (resolve .a a s.fetched).2) := by
  simp [dispatchSpecial, h]

end Sys2Proof.Machine
end

