-- ==== Sys2Proof/Laws/Bodies.lean ====
section
/-! SUPPORT. What each shape of body leaves unchanged, said once. -/

namespace Sys2Proof.Machine

section
variable (f : Word → Word → Word) (g : Word → Word → AluResult) (p : Word → Word → Bool)
variable (b a : Operand) (s : State)

@[simp] theorem writeBody_skip : (writeBody f b a s).skip = s.skip := by simp [writeBody]
@[simp] theorem writeBody_status : (writeBody f b a s).status = s.status := by simp [writeBody]
@[simp] theorem writeBody_icount : (writeBody f b a s).icount = s.icount := by simp [writeBody]
@[simp] theorem writeBody_limit : (writeBody f b a s).limit = s.limit := by simp [writeBody]

@[simp] theorem writeExBody_skip : (writeExBody g b a s).skip = s.skip := by simp [writeExBody]
@[simp] theorem writeExBody_status : (writeExBody g b a s).status = s.status := by simp [writeExBody]
@[simp] theorem writeExBody_icount : (writeExBody g b a s).icount = s.icount := by simp [writeExBody]
@[simp] theorem writeExBody_limit : (writeExBody g b a s).limit = s.limit := by simp [writeExBody]

/-- The destination write comes last: with `b = EX` the result ends in `ex` (R138). -/
theorem writeExBody_ex : (writeExBody g b a s).ex =
    if b = .ex then (g (readOp b s) (readOp a s)).value else (g (readOp b s) (readOp a s)).ex := by
  simp only [writeExBody, writeOp_ex, setEx_ex]

theorem writeExBody_mem : (writeExBody g b a s).mem = match b.memAddr with
    | some q => s.mem.write q (g (readOp b s) (readOp a s)).value
    | none => s.mem := by
  unfold writeExBody
  cases b <;> rfl

/-- An IF writes `skip` and nothing else (R180). -/
theorem condBody_eq : condBody p b a s =
    if p (readOp b s) (readOp a s) then s else s.setSkip true := rfl

theorem condBody_frame : ∃ v, condBody p b a s = s.setSkip v := by
  unfold condBody
  split
  · exact ⟨s.skip, rfl⟩
  · exact ⟨true, rfl⟩

end

/-- `JSR` on a state whose `sp` is 0 raises and does nothing else (R203). -/
theorem bodyJsr_overflow (a : Operand) (s : State) (h : s.sp = 0) :
    bodyJsr a s = s.setStatus (.halted .stackOverflow) := by
  unfold bodyJsr
  rw [if_pos h]
  rfl

/-- `JSR` otherwise: push, then read the operand, then jump (R200, R202). -/
theorem bodyJsr_calls (a : Operand) (s : State) (h : s.sp ≠ 0) :
    bodyJsr a s =
      ((s.setSp (s.sp - 1)).memWrite (s.sp - 1) s.pc).setPc
        (readOp a ((s.setSp (s.sp - 1)).memWrite (s.sp - 1) s.pc)) := by
  unfold bodyJsr
  rw [if_neg h]
  rfl

end Sys2Proof.Machine
end

