-- ==== Sys2Proof/Laws/Decode.lean ====
section
/-! SUPPORT. The small lemmas of the decoder and the encoder: fields of a packed word, modes and their codes, bytes and
words. -/

namespace Sys2Proof

@[simp] theorem fieldO_pack (o b : BitVec 5) (a : BitVec 6) : fieldO (pack o b a) = o := by
  apply BitVec.eq_of_toNat_eq
  have := o.isLt; have := b.isLt; have := a.isLt
  simp only [fieldO, pack, BitVec.extractLsb'_toNat, BitVec.toNat_append, Nat.shiftRight_zero]
  rw [Nat.shiftLeft_eq, ← Nat.shiftLeft_eq, ← Nat.shiftLeft_add_eq_or_of_lt (by omega)]
  omega

@[simp] theorem fieldB_pack (o b : BitVec 5) (a : BitVec 6) : fieldB (pack o b a) = b := by
  apply BitVec.eq_of_toNat_eq
  have := o.isLt; have := b.isLt; have := a.isLt
  simp only [fieldB, pack, BitVec.extractLsb'_toNat, BitVec.toNat_append]
  rw [← Nat.shiftLeft_add_eq_or_of_lt (by omega), ← Nat.shiftLeft_add_eq_or_of_lt (by omega)]
  simp only [Nat.shiftLeft_eq, Nat.shiftRight_eq_div_pow]
  omega

@[simp] theorem fieldA_pack (o b : BitVec 5) (a : BitVec 6) : fieldA (pack o b a) = a := by
  apply BitVec.eq_of_toNat_eq
  have := o.isLt; have := b.isLt; have := a.isLt
  simp only [fieldA, pack, BitVec.extractLsb'_toNat, BitVec.toNat_append]
  rw [← Nat.shiftLeft_add_eq_or_of_lt (by omega), ← Nat.shiftLeft_add_eq_or_of_lt (by omega)]
  simp only [Nat.shiftLeft_eq, Nat.shiftRight_eq_div_pow]
  omega

@[simp] theorem Reg.ofIndex_index (r : Reg) : Reg.ofIndex r.index = r := by cases r <;> rfl

/-- The code of a mode says whether it has an extra word (R74). -/
theorem needsExtra_code (m : Mode) : needsExtra m.code = decide (m.extra.length = 1) := by
  cases m with
  | reg r => cases r <;> rfl
  | ind r => cases r <;> rfl
  | idx r n => cases r <;> rfl
  | inline k => revert k; decide
  | _ => rfl

/-- A mode comes back from its code and its extra word. -/
theorem decodeMode_code (m : Mode) (x : Word) (h : m.extra = [] ∨ m.extra = [x]) :
    decodeMode m.code x = m := by
  cases m with
  | reg r => cases r <;> rfl
  | ind r => cases r <;> rfl
  | idx r n =>
    obtain h | h := h <;> simp only [Mode.extra, List.cons.injEq, and_true, reduceCtorEq] at h
    subst h
    cases r <;> rfl
  | pick n =>
    obtain h | h := h <;> simp only [Mode.extra, List.cons.injEq, and_true, reduceCtorEq] at h
    subst h; rfl
  | mem n =>
    obtain h | h := h <;> simp only [Mode.extra, List.cons.injEq, and_true, reduceCtorEq] at h
    subst h; rfl
  | lit n =>
    obtain h | h := h <;> simp only [Mode.extra, List.cons.injEq, and_true, reduceCtorEq] at h
    subst h; rfl
  | inline k =>
    have hk := k.isLt
    have hn : (0x20 + k.toNat) % 2 ^ 6 = 0x20 + k.toNat := Nat.mod_eq_of_lt (by omega)
    simp only [decodeMode, Mode.code, BitVec.toNat_ofNat, hn]
    repeat rw [if_neg (by omega)]
    simp
  | _ => rfl

/-- A mode that fits the 5-bit field survives the zero extension (R76). -/
theorem code_setWidth (m : Mode) (h : m.fitsB = true) : (m.code.setWidth 5).setWidth 6 = m.code := by
  cases m with
  | reg r => cases r <;> rfl
  | ind r => cases r <;> rfl
  | idx r n => cases r <;> rfl
  | inline k => simp [Mode.fitsB] at h
  | _ => rfl

theorem extra_length_le (m : Mode) : m.extra.length ≤ 1 := by cases m <;> simp [Mode.extra]

@[simp] theorem takeWord_bytesOf (w : Word) (ws : List Word) (rest : List Byte) :
    takeWord (bytesOf (w :: ws) ++ rest) = some (w, bytesOf ws ++ rest) := by
  have : (w.extractLsb' 8 8 ++ w.extractLsb' 0 8 : Word) = w := by
    ext i hi
    simp only [BitVec.getElem_append, BitVec.getElem_extractLsb', Nat.zero_add]
    split_ifs with h
    · exact BitVec.getLsbD_eq_getElem hi
    · rw [show 8 + (i - 8) = i by omega]
      exact BitVec.getLsbD_eq_getElem hi
  simp only [bytesOf, List.cons_append, takeWord]
  rw [this]

theorem takeWord_lt {bs rest : List Byte} {w : Word} (h : takeWord bs = some (w, rest)) :
    rest.length < bs.length := by
  unfold takeWord at h
  split at h <;> simp at h
  obtain ⟨-, rfl⟩ := h
  simp

end Sys2Proof
end

