-- ==== Sys2Proof/Laws/PerInstr.lean ====
section
/-! SUPPORT. Facts about every instruction as syntax, one lemma per constructor. Family `EncodeLength`: the encoding of an
instruction has `1 + nw(b) + nw(a)` words, at most three (R75). -/

namespace Sys2Proof.Laws.EncodeLength

/-- `1 + nw(b) + nw(a)` words, at most `Config.maxLength` (R75). -/
def Statement (i : Instr) : Prop :=
  (encode i).length = 1 + i.bExtra.length + i.aMode.extra.length ∧ (encode i).length ≤ Config.maxLength

theorem basic (b a : Mode) (i : Instr) (hb : i.bMode = some b) (ha : i.aMode = a) : Statement i := by
  have h1 := extra_length_le b
  have h2 := extra_length_le a
  simp only [Statement, encode, Instr.bExtra, hb, ha, List.length_cons, List.length_append,
    Config.maxLength]
  omega

theorem special (a : Mode) (i : Instr) (hb : i.bMode = none) (ha : i.aMode = a) : Statement i := by
  have h2 := extra_length_le a
  simp only [Statement, encode, Instr.bExtra, hb, ha, List.length_cons, List.length_append,
    List.length_nil, Config.maxLength]
  omega

theorem set (b a : Mode) : Statement (.set b a) := basic b a _ rfl rfl
theorem add (b a : Mode) : Statement (.add b a) := basic b a _ rfl rfl
theorem sub (b a : Mode) : Statement (.sub b a) := basic b a _ rfl rfl
theorem mul (b a : Mode) : Statement (.mul b a) := basic b a _ rfl rfl
theorem mli (b a : Mode) : Statement (.mli b a) := basic b a _ rfl rfl
theorem div (b a : Mode) : Statement (.div b a) := basic b a _ rfl rfl
theorem dvi (b a : Mode) : Statement (.dvi b a) := basic b a _ rfl rfl
theorem mod (b a : Mode) : Statement (.mod b a) := basic b a _ rfl rfl
theorem mdi (b a : Mode) : Statement (.mdi b a) := basic b a _ rfl rfl
theorem and (b a : Mode) : Statement (.and b a) := basic b a _ rfl rfl
theorem bor (b a : Mode) : Statement (.bor b a) := basic b a _ rfl rfl
theorem xor (b a : Mode) : Statement (.xor b a) := basic b a _ rfl rfl
theorem shr (b a : Mode) : Statement (.shr b a) := basic b a _ rfl rfl
theorem asr (b a : Mode) : Statement (.asr b a) := basic b a _ rfl rfl
theorem shl (b a : Mode) : Statement (.shl b a) := basic b a _ rfl rfl
theorem ifb (b a : Mode) : Statement (.ifb b a) := basic b a _ rfl rfl
theorem ifc (b a : Mode) : Statement (.ifc b a) := basic b a _ rfl rfl
theorem ife (b a : Mode) : Statement (.ife b a) := basic b a _ rfl rfl
theorem ifn (b a : Mode) : Statement (.ifn b a) := basic b a _ rfl rfl
theorem ifg (b a : Mode) : Statement (.ifg b a) := basic b a _ rfl rfl
theorem ifa (b a : Mode) : Statement (.ifa b a) := basic b a _ rfl rfl
theorem ifl (b a : Mode) : Statement (.ifl b a) := basic b a _ rfl rfl
theorem ifu (b a : Mode) : Statement (.ifu b a) := basic b a _ rfl rfl
theorem jsr (a : Mode) : Statement (.jsr a) := special a _ rfl rfl
theorem unsupBasic (k : BitVec 3) (b a : Mode) : Statement (.unsupBasic k b a) := basic b a _ rfl rfl
theorem unsupSpecial00 (a : Mode) : Statement (.unsupSpecial00 a) := special a _ rfl rfl
theorem unsupSpecial02 (k : BitVec 1) (a : Mode) : Statement (.unsupSpecial02 k a) := special a _ rfl rfl
theorem unsupSpecial04 (k : BitVec 2) (a : Mode) : Statement (.unsupSpecial04 k a) := special a _ rfl rfl
theorem unsupSpecial08 (k : BitVec 3) (a : Mode) : Statement (.unsupSpecial08 k a) := special a _ rfl rfl
theorem unsupSpecial10 (k : BitVec 4) (a : Mode) : Statement (.unsupSpecial10 k a) := special a _ rfl rfl

end Sys2Proof.Laws.EncodeLength
end

