-- ==== Sys2Proof/Tests/Slice0.lean ====
section
/-! SUPPORT. The model's own tests: ill-formed terms the check refuses, decoding of words written out from
spec/30_encoding.md, single steps with the results of spec/95_test_vectors.md, and for every obligation that has
hypotheses a state and operands that meet them. -/

namespace Sys2Proof.Tests

open Sys2Proof Sys2Proof.Machine

/-! ### Well-formedness -/

/-- R76, R121: an inline literal is no destination. -/
theorem test_wf_inline_destination_refused :
    (Instr.set (.inline 1) (.reg .A)).wellFormed = false ∧
      (Instr.ifu (.inline 31) (.reg .A)).wellFormed = false ∧
      (Instr.unsupBasic 7 (.inline 0) (.reg .A)).wellFormed = false := by decide

/-- R76, R113: a next-word literal is a destination a word can name, an inline literal a source. -/
theorem test_wf_literals_accepted :
    (Instr.set (.lit 5) (.inline 31)).wellFormed = true ∧ (Instr.jsr (.inline 5)).wellFormed = true := by decide

/-! ### Decoding, from the words of R71, R72, R77 to R80: `aaaaaabbbbbooooo`, `aaaaaasssss00000` -/

theorem test_decode_move_and_arithmetic :
    decodeWords 0b0000010000000001 0 0 = .set (.reg .A) (.reg .B) ∧
    decodeWords 0b0000010000000010 0 0 = .add (.reg .A) (.reg .B) ∧
    decodeWords 0b0000010000000011 0 0 = .sub (.reg .A) (.reg .B) ∧
    decodeWords 0b0000010000000100 0 0 = .mul (.reg .A) (.reg .B) ∧
    decodeWords 0b0000010000000101 0 0 = .mli (.reg .A) (.reg .B) ∧
    decodeWords 0b0000010000000110 0 0 = .div (.reg .A) (.reg .B) ∧
    decodeWords 0b0000010000000111 0 0 = .dvi (.reg .A) (.reg .B) ∧
    decodeWords 0b0000010000001000 0 0 = .mod (.reg .A) (.reg .B) ∧
    decodeWords 0b0000010000001001 0 0 = .mdi (.reg .A) (.reg .B) := by decide

theorem test_decode_bitwise_and_shift :
    decodeWords 0b0000010000001010 0 0 = .and (.reg .A) (.reg .B) ∧
    decodeWords 0b0000010000001011 0 0 = .bor (.reg .A) (.reg .B) ∧
    decodeWords 0b0000010000001100 0 0 = .xor (.reg .A) (.reg .B) ∧
    decodeWords 0b1010000000001101 0 0 = .shr (.reg .A) (.inline 8) ∧
    decodeWords 0b0000010000001110 0 0 = .asr (.reg .A) (.reg .B) ∧
    decodeWords 0b0000010000001111 0 0 = .shl (.reg .A) (.reg .B) := by decide

theorem test_decode_conditionals :
    decodeWords 0b0000010000010000 0 0 = .ifb (.reg .A) (.reg .B) ∧
    decodeWords 0b0000010000010001 0 0 = .ifc (.reg .A) (.reg .B) ∧
    decodeWords 0b0000010000010010 0 0 = .ife (.reg .A) (.reg .B) ∧
    decodeWords 0b0000010000010011 0 0 = .ifn (.reg .A) (.reg .B) ∧
    decodeWords 0b0000010000010100 0 0 = .ifg (.reg .A) (.reg .B) ∧
    decodeWords 0b0000010000010101 0 0 = .ifa (.reg .A) (.reg .B) ∧
    decodeWords 0b0000010000010110 0 0 = .ifl (.reg .A) (.reg .B) ∧
    decodeWords 0b1111111111110111 9 0 = .ifu (.lit 9) (.inline 31) := by decide

theorem test_decode_special_and_unsupported :
    decodeWords 0b0001100000100000 0 0 = .jsr (.reg .I) ∧
    decodeWords 0b0111111111011000 0x1000 0x0020 = .unsupBasic 0 (.mem 0x1000) (.lit 0x0020) ∧
    decodeWords 0b0000000000011111 0 0 = .unsupBasic 7 (.reg .A) (.reg .A) ∧
    decodeWords 0b1000010000000000 0 0 = .unsupSpecial00 (.inline 1) ∧
    decodeWords 0b0000000001000000 0 0 = .unsupSpecial02 0 (.reg .A) ∧
    decodeWords 0b0000000001100000 0 0 = .unsupSpecial02 1 (.reg .A) ∧
    decodeWords 0b0000000011100000 0 0 = .unsupSpecial04 3 (.reg .A) ∧
    decodeWords 0b0000000100000000 0 0 = .unsupSpecial08 0 (.reg .A) ∧
    decodeWords 0b0000001111100000 0 0 = .unsupSpecial10 15 (.reg .A) := by decide

/-- R101 to R113: the modes, in position `a` and in position `b`; `b`'s extra word comes first (R74). -/
theorem test_decode_modes :
    decodeWords 0x2401 0 0 = .set (.reg .A) (.ind .B) ∧
    decodeWords 0x5AC1 0x2000 0x0010 = .set (.idx .I 0x2000) (.idx .I 0x0010) ∧
    decodeWords 0x6301 0 0 = .set .stack .stack ∧
    decodeWords 0x6461 0 0 = .set (.reg .X) .peek ∧
    decodeWords 0x6801 2 0 = .set (.reg .A) (.pick 2) ∧
    decodeWords 0x6F01 0 0 = .set .stack .sp ∧
    decodeWords 0x8783 0 0 = .sub .pc (.inline 1) ∧
    decodeWords 0x7402 0 0 = .add (.reg .A) .ex ∧
    decodeWords 0x7BC2 0x1000 0x1001 = .add (.mem 0x1000) (.mem 0x1001) ∧
    decodeWords 0x03E2 5 0 = .add (.lit 5) (.reg .A) := by decide

/-- 95 part 1 S7 and 3.1: the words of an instruction, and its bytes as the raw image holds them (R54, R241). -/
theorem test_encode :
    encode (.jsr (.reg .I)) = [0x1820] ∧
    encode (.set (.mem 0x1000) (.lit 0x0020)) = [0x7FC1, 0x1000, 0x0020] ∧
    encodeBytes (.set (.reg .A) (.lit 0x0030)) = [0x7C, 0x01, 0x00, 0x30] := by decide

/-- A byte list that ends inside an instruction is rejected by name. -/
theorem test_decode_truncated :
    decode [0x7C] = .error .noFirstWord ∧ decode [0x7C, 0x01, 0x00] = .error .missingExtraWord ∧
      decode [0x04, 0x02] = .ok (.add (.reg .A) (.reg .B), []) := ⟨rfl, rfl, rfl⟩

/-! ### Single steps: the results are those of spec/95_test_vectors.md -/

/-- The state a result goes on to. -/
def next? : Result → Option State
  | .next t => some t
  | .fault _ => none
  | .refused _ => none

/-- The reset state with words from address 0 on. -/
def loaded (ws : List Word) : State := { State.reset with mem := State.reset.mem.load 0x0000 ws }

/-- The presets of 95 part 2: A, B and `ex` = 0xAAAA, with the word at address 0. -/
def ab (w bv av : Word) : State := ((loaded [w]).setX .A bv |>.setX .B av).setEx 0xAAAA

/-- A, `ex`, `skip` and `pc` after one step. -/
def look (s : State) : Option (Word × Word × Bool × Word) :=
  (next? (step s)).map fun t => (t.x .A, t.ex, t.skip, t.pc)

theorem test_set : look (ab 0x0401 0x1234 0xFFFF) = some (0xFFFF, 0xAAAA, false, 1) := by decide
theorem test_add_carries : look (ab 0x0402 0xFFFF 0x0001) = some (0x0000, 0x0001, false, 1) := by decide
theorem test_sub_borrows : look (ab 0x0403 0x0001 0x0002) = some (0xFFFF, 0xFFFF, false, 1) := by decide
theorem test_mul : look (ab 0x0404 0xFFFF 0xFFFF) = some (0x0001, 0xFFFE, false, 1) := by decide
theorem test_mli : look (ab 0x0405 0x8000 0x7FFF) = some (0x8000, 0xC000, false, 1) := by decide
theorem test_div : look (ab 0x0406 0x0064 0x0007) = some (0x000E, 0x4924, false, 1) := by decide
theorem test_div_by_zero : look (ab 0x0406 0x0005 0x0000) = some (0x0000, 0x0000, false, 1) := by decide
theorem test_dvi_toward_zero : look (ab 0x0407 0xFFFF 0x0003) = some (0x0000, 0xAAAB, false, 1) := by
  decide
theorem test_dvi_wraps : look (ab 0x0407 0x8000 0xFFFF) = some (0x8000, 0x0000, false, 1) := by decide
theorem test_dvi_floor : aluDvi .floor 0xFFF9 0x0002 = ⟨0xFFFC, 0x8000⟩ := by decide
theorem test_mod : look (ab 0x0408 0xFFF9 0x0010) = some (0x0009, 0xAAAA, false, 1) := by decide
theorem test_mod_by_zero : look (ab 0x0408 0x0007 0x0000) = some (0x0000, 0xAAAA, false, 1) := by decide
theorem test_mdi : look (ab 0x0409 0xFFF9 0x0010) = some (0xFFF9, 0xAAAA, false, 1) := by decide
theorem test_mdi_floor : aluMdi .floor 0x0007 0xFFFD = 0xFFFE := by decide
theorem test_and : look (ab 0x040A 0xF0F0 0x3C3C) = some (0x3030, 0xAAAA, false, 1) := by decide
theorem test_bor : look (ab 0x040B 0xF0F0 0x3C3C) = some (0xFCFC, 0xAAAA, false, 1) := by decide
theorem test_xor : look (ab 0x040C 0x1234 0xFFFF) = some (0xEDCB, 0xAAAA, false, 1) := by decide
theorem test_shr : look (ab 0x040D 0x1234 0x0008) = some (0x0012, 0x3400, false, 1) := by decide
theorem test_shr_past_width : look (ab 0x040D 0xFFFF 0x0011) = some (0x0000, 0x7FFF, false, 1) := by decide
theorem test_asr : look (ab 0x040E 0x8001 0x0001) = some (0xC000, 0x8000, false, 1) := by decide
theorem test_asr_past_width : look (ab 0x040E 0x8000 0x0011) = some (0xFFFF, 0xC000, false, 1) := by decide
theorem test_shl : look (ab 0x040F 0x8001 0x0001) = some (0x0002, 0x0001, false, 1) := by decide
theorem test_shl_past_width : look (ab 0x040F 0xFFFF 0x001F) = some (0x0000, 0x8000, false, 1) := by decide
theorem test_ifb : look (ab 0x0410 0xF0F0 0x0F0F) = some (0xF0F0, 0xAAAA, true, 1) := by decide
theorem test_ifc : look (ab 0x0411 0xF0F0 0x0F0F) = some (0xF0F0, 0xAAAA, false, 1) := by decide
theorem test_ife : look (ab 0x0412 0x0005 0x0005) = some (0x0005, 0xAAAA, false, 1) := by decide
theorem test_ifn : look (ab 0x0413 0x0005 0x0005) = some (0x0005, 0xAAAA, true, 1) := by decide
theorem test_ifg_unsigned : look (ab 0x0414 0xFFFF 0x0001) = some (0xFFFF, 0xAAAA, false, 1) := by decide
theorem test_ifa_signed : look (ab 0x0415 0xFFFF 0x0001) = some (0xFFFF, 0xAAAA, true, 1) := by decide
theorem test_ifl_unsigned : look (ab 0x0416 0xFFFF 0x0001) = some (0xFFFF, 0xAAAA, true, 1) := by decide
theorem test_ifu_signed : look (ab 0x0417 0xFFFF 0x0001) = some (0xFFFF, 0xAAAA, false, 1) := by decide

/-- 95 part 1 S7. -/
theorem test_jsr :
    (next? (step ((loaded [0x1820]).setX .I 0x2323))).map (fun t => (t.pc, t.sp, t.memRead 0xFFFE)) =
      some (0x2323, 0xFFFE, 0x0001) := by decide

/-- 95 part 3.4 FV7. -/
theorem test_jsr_overflow :
    (next? (step (loaded [0x6020]))).map (fun t => (t.status, t.pc, t.sp, t.icount)) =
      some (.halted .stackOverflow, 1, 0, 1) := by decide

/-- 95 part 3.4 FV2: both extra words are consumed before the condition. -/
theorem test_unsupported_basic :
    (next? (step (loaded [0x7FD8, 0x1000, 0x0020]))).map (fun t => (t.status, t.pc, t.memRead 0x1000)) =
      some (.halted (.unsupportedInstruction 0), 3, 0) := by decide

/-- 95 part 3.4 FV1. -/
theorem test_unsupported_special00 :
    (next? (step State.reset)).map (fun t => (t.status, t.pc, t.icount)) =
      some (.halted (.unsupportedInstruction 0), 1, 1) := by decide

/-- R211 on a special word of each other row; the address is that of the first word. -/
theorem test_unsupported_special_others :
    [(0x6040 : Word), 0x60E0, 0x6100, 0x63E0].all (fun w =>
      decide ((next? (step { loaded [0, w] with pc := 1 })).map (fun t => (t.status, t.pc, t.sp)) =
        some (.halted (.unsupportedInstruction 1), 2, 0))) = true := by decide

/-- 95 part 2.1: the destination write is last, so `ADD EX, 1` ends with the sum. -/
theorem test_add_to_ex : look ((loaded [0x87A2]).setEx 0xFFFF) = some (0, 0x0000, false, 1) := by decide

/-- 95 part 2.1: a write to a literal destination is dropped, `ex` is still written. -/
theorem test_literal_destination :
    (next? (step ((loaded [0x03E2, 0x0005]).setX .A 0xFFFF))).map (fun t => (t.ex, t.memRead 1, t.pc)) =
      some (1, 5, 2) := by decide

/-- 95 part 3.2: `SET PUSH, PEEK` reads the word it is pushing to. -/
theorem test_push_peek :
    (next? (step { ((loaded [0x6701]).memWrite 0x7FFF 0x55).memWrite 0x8000 0x66 with sp := 0x8000 })).map
      (fun t => (t.sp, t.memRead 0x7FFF, t.memRead 0x8000)) = some (0x7FFF, 0x55, 0x66) := by decide

/-- 95 part 3.2: the extra word is read at the wrapped address. -/
theorem test_pc_wraps :
    (next? (step { (loaded [0x0042]).memWrite 0xFFFF 0x7C01 with pc := 0xFFFF })).map (fun t => (t.x .A, t.pc)) =
      some (0x0042, 0x0001) := by decide

/-- 95 part 3.3: a skipped three-word instruction is passed over whole. -/
theorem test_skip_three_words :
    (next? (step { loaded [0x7FC1, 0x1000, 0x0020] with skip := true })).map
      (fun t => (t.pc, t.memRead 0x1000, t.skip)) = some (3, 0, false) := by decide

/-- 95 part 3.4 FV8: with LIMIT 0 nothing is fetched. -/
theorem test_budget_zero :
    (next? (step { loaded [0x8401] with limit := some 0 })).map (fun t => (t.status, t.pc, t.icount)) =
      some (.halted .budgetExhausted, 0, 0) := by decide

/-- 95 part 3.2: the access order of `ADD [0x1000], [0x1001]`. -/
theorem test_access_order :
    accesses (.add (.mem 0x1000) (.mem 0x1001))
        (((loaded [0x7BC2, 0x1000, 0x1001]).memWrite 0x1000 2).memWrite 0x1001 3) =
      [.read 0, .read 1, .read 2, .read 0x1000, .read 0x1001, .write 0x1000 5] := by decide

/-- A table word placed after reset is what the first step runs: `JSR n` with n = 0x0006. -/
theorem test_table_word :
    decodeTableWord 32 0x00067C20 = some (.jsr (.lit 6)) ∧
    fetchInstr (State.reset.withFetchWord 32 0x00067C20) = .jsr (.lit 6) ∧
    (next? (step (State.reset.withFetchWord 32 0x00067C20))).map (fun t => (t.pc, t.memRead 0xFFFE)) =
      some (6, 2) := by decide

/-- R36: the reset state and its memory. -/
theorem test_reset :
    State.reset.sp = 0xFFFF ∧ State.reset.mem.wf = true ∧ State.reset.memRead 0x8000 = 0 := by decide

/-! ### Witnesses: each obligation's hypotheses are met together -/

theorem witness_DecodeOfEncodeIsIdentity :
    (Instr.set (.lit 0xFFFF) (.inline 31)).wellFormed = true ∧
      (Instr.unsupBasic 7 (.idx .J 0xFFFF) (.pick 0)).wellFormed = true ∧
      (Instr.unsupSpecial10 15 (.inline 31)).wellFormed = true := by decide

theorem witness_EveryFirstWordLiesInExactlyOneRow :
    (Instr.jsr (.reg .A)).row.covers 0xFC20 ∧ (Instr.unsupSpecial00 .sp).row.covers 0x0000 := by
  unfold Row.covers; decide

theorem witness_StepRunsTheDecodedInstruction :
    ∃ (s : State) (i : Instr) (rest : List Byte), s.status = .running ∧ budgetReached s = false ∧
      decode (memBytes s.mem 3 s.pc) = .ok (i, rest) :=
  ⟨{ loaded [0x7C01, 0x0030] with limit := some 1 }, .set (.reg .A) (.lit 0x0030), [0, 0], rfl, rfl, rfl⟩

theorem witness_StepIsTheSpecPseudocode : State.reset.status = .running := rfl

theorem witness_PlacedWordIsTheNextInstruction :
    State.reset.status = .running ∧ budgetReached State.reset = false ∧
      decodeTableWord 48 0x001020007FC1 = some (.set (.mem 0x2000) (.lit 0x0010)) := by decide

/-- LIMIT reached exactly, LIMIT passed, one dispatch left, and no LIMIT. -/
theorem witness_BudgetHaltsBeforeTheFetch :
    (∃ (s : State) (n : Nat), s.status = .running ∧ s.limit = some n ∧ n = s.icount) ∧
    (∃ (s : State) (n : Nat), s.status = .running ∧ s.limit = some n ∧ n < s.icount) ∧
    (∃ (s : State) (n : Nat), s.status = .running ∧ s.limit = some n ∧ n = s.icount + 1 ∧
      ∀ m, s.limit = some m → s.icount < m) ∧
    ∃ s : State, s.status = .running ∧ ∀ m, s.limit = some m → s.icount < m :=
  ⟨⟨{ State.reset with limit := some 0 }, 0, rfl, rfl, rfl⟩,
    ⟨{ State.reset with limit := some 0, icount := 1 }, 0, rfl, rfl, by decide⟩,
    ⟨{ State.reset with limit := some 1 }, 1, rfl, rfl, rfl, fun _ h => by cases h; decide⟩,
    ⟨State.reset, rfl, fun _ h => by cases h⟩⟩

theorem witness_HaltedCoreMakesNoStep :
    (raise .stackOverflow State.reset).status = .halted .stackOverflow := rfl

theorem witness_RunningCoreAlwaysHasANextState : (loaded [0xFFFF]).status = .running := rfl

/-- The longest image, the shortest too long, and the last address. -/
theorem witness_ResetLeavesTheStatedValues :
    (List.replicate 65536 (0xFFFF : Word)).length ≤ 65536 ∧
      65536 < (List.replicate 65537 (0xFFFF : Word)).length ∧ 0xFFFF < 65536 := by
  simp only [List.length_replicate]; decide

theorem witness_ResetMeetsTheInvariant :
    ∃ s, hostReset 0x1000 [0x8401, 0x0000] = some s := ⟨_, rfl⟩

/-- A running state within its budget, one at its end, and its next states. -/
theorem witness_StepKeepsTheInvariant :
    (∃ s t, Inv s ∧ s.limit = some 1 ∧ step s = .next t) ∧
    ∃ s t, Inv s ∧ s.limit = some 0 ∧ step s = .next t :=
  ⟨⟨{ State.reset with limit := some 1 }, _,
      ⟨rfl, fun _ h => by cases h; decide, fun _ h => (nomatch h), fun h => (nomatch h), fun h => (nomatch h)⟩,
      rfl, rfl⟩,
    ⟨{ State.reset with limit := some 0 }, _,
      ⟨rfl, fun _ h => by cases h; decide, fun _ h => (nomatch h), fun h => (nomatch h), fun h => (nomatch h)⟩,
      rfl, rfl⟩⟩

/-- A run whose budget ends it, one a fatal condition ends, and one with no dispatch. -/
theorem witness_BoundedRunHaltsWithinItsLimit :
    ((loaded [0x8783]).status = .running ∧ (loaded [0x8783]).icount ≤ 2 ∧
      fatal (hostRun 2 (loaded [0x8783])) = false) ∧
    (State.reset.status = .running ∧ State.reset.icount ≤ 0 ∧ fatal (hostRun 0 State.reset) = false) ∧
    fatal (hostRun 2 State.reset) = true := by decide

theorem witness_LargerLimitRetracesTheShorterRun :
    (loaded [0x8783]).status = .running ∧ (loaded [0x8783]).icount ≤ 1 ∧ 1 ≤ 2 ∧
      (hostRun 1 (loaded [0x8783])).status = .halted .budgetExhausted := by decide

theorem witness_PresetSetsOneElementAndInspectShowsAll :
    (raise .budgetExhausted State.reset).status = .halted .budgetExhausted := rfl

/-- The bytes just outside the last word and just outside the first. -/
theorem witness_ReadGivesTheLatestWrite :
    (131069 ≠ byteAddr 0xFFFF ∧ 131069 ≠ byteAddr 0xFFFF + 1) ∧ 2 ≠ byteAddr 0 ∧ 2 ≠ byteAddr 0 + 1 := by decide

theorem witness_SpecialAndLiteralModesResolveByTheirCode : 0 ≤ 31 ∧ 31 ≤ 31 := by decide

/-- Every result statement of a basic instruction and `SkippedInstruction…` ask for one of these. -/
theorem witness_skip_clear_and_set :
    State.reset.skip = false ∧ (State.reset.setSkip true).skip = true := ⟨rfl, rfl⟩

/-- `decodesAs`: a word of every opcode its uses name, first and last. -/
theorem witness_decodesAs : fieldO 0xFFE1 = 0x01 ∧ fieldO 0x0017 = 0x17 := by decide

theorem witness_SetCopiesItsSource : (loaded [0x0401]).skip = false := rfl
theorem witness_AddAndSubReportCarryAndBorrow : (loaded [0x0402]).skip = false ∧ (loaded [0x0403]).skip = false :=
  ⟨rfl, rfl⟩
theorem witness_MulAndMliSplitTheProduct : (loaded [0x0404]).skip = false ∧ (loaded [0x0405]).skip = false :=
  ⟨rfl, rfl⟩
theorem witness_BitwiseInstructionsWorkBitByBit : State.reset.skip = false ∧ 0 < 16 ∧ 15 < 16 := by decide
theorem witness_ShiftsComputeOverUnboundedIntegers : (ab 0x040D 0xFFFF 0xFFFF).skip = false := rfl
theorem witness_ConditionalsSetSkipWhenTheirPredicateFails : (ab 0x0410 1 1).skip = false := rfl

/-- A zero divisor and the divisors 1 and 0xFFFF. -/
theorem witness_DivAndModAreUnsigned :
    (∃ s : State, s.skip = false ∧ (operandsOf (.reg .A) (.inline 0) s).av = 0) ∧
    (∃ s : State, s.skip = false ∧ (operandsOf (.reg .A) (.inline 1) s).av ≠ 0) ∧
    ∃ s : State, s.skip = false ∧ (operandsOf (.reg .A) (.lit 0xFFFF) s).av ≠ 0 :=
  ⟨⟨State.reset, rfl, by decide⟩, ⟨State.reset, rfl, by decide +kernel⟩,
    ⟨State.reset, rfl, by decide⟩⟩

theorem witness_DviAndMdiAreSigned :
    (∃ s : State, s.skip = false ∧ (operandsOf (.reg .A) (.inline 0) s).av = 0) ∧
    (∃ s : State, s.skip = false ∧ (operandsOf (.reg .A) (.lit 0xFFFF) s).av ≠ 0) ∧ (0x8000 : Word) ≠ 0 :=
  ⟨⟨State.reset, rfl, by decide⟩, ⟨State.reset, rfl, by decide +kernel⟩, by decide⟩

/-- Both roundings; -32768 by -1. -/
theorem witness_SignedRemainderBelongsToTheQuotient :
    (0xFFFF : Word) ≠ 0 ∧ SDivRound.trunc = .trunc ∧ SDivRound.floor = .floor := by decide

/-- The register zero and not zero. -/
theorem witness_SameRegisterTwiceIsReadBeforeItIsWritten :
    (State.reset.skip = false ∧ State.reset.x .J = 0) ∧
      ((State.reset.setX .J 3).skip = false ∧ (State.reset.setX .J 3).x .J ≠ 0) := by decide

/-- The register added to the low half may be any. -/
theorem witness_MultiWordSumAndDifferenceGoThroughEx :
    State.reset.skip = false ∧ Reg.A ≠ Reg.B ∧ Reg.X ≠ Reg.A ∧ Reg.X ≠ Reg.B := by decide

/-- The amounts at both ends of every clause. -/
theorem witness_ShiftClosedFormsHoldForEveryAmount :
    ((0 : Word).toNat ≤ 15 ∧ (15 : Word).toNat ≤ 15 ∧ (16 : Word).toNat ≤ 16 ∧ (16 : Word).toNat = 16) ∧
    (17 ≤ (17 : Word).toNat ∧ (17 : Word).toNat ≤ 31 ∧ (31 : Word).toNat ≤ 31) ∧
    (16 ≤ (16 : Word).toNat ∧ (16 : Word).toNat ≤ 31) ∧
    32 ≤ (32 : Word).toNat ∧ 32 ≤ (0xFFFF : Word).toNat := by decide

theorem witness_SkippedInstructionIsPassedOverWhole :
    ({ loaded [0x7C20, 6] with skip := true } : State).skip = true := rfl

/-- `skip` set by a false conditional, left clear by a true one, cleared by a skipped one. -/
theorem witness_SkipIsSetOnlyByAFalseConditional :
    (∃ t, exec (.ife (.reg .A) (.inline 1)) State.reset = .next t ∧ t.skip = true) ∧
    (∃ t, exec (.ife (.reg .A) (.inline 0)) State.reset = .next t ∧ t.skip = false) ∧
    ∃ t, exec (.ife (.reg .A) (.inline 1)) (State.reset.setSkip true) = .next t ∧ t.skip = false :=
  ⟨⟨_, rfl, by decide⟩, ⟨_, rfl, by decide +kernel⟩, ⟨_, rfl, by decide +kernel⟩⟩

/-- The word `JSR I`; `sp` 0xFFFF as after reset, and 1, the last value that does not overflow. -/
theorem witness_JsrPushesTheReturnAddressThenJumps :
    (fieldO 0x1820 = 0x00 ∧ fieldB 0x1820 = 0x01) ∧
    (State.reset.skip = false ∧ (resolve .a (.reg .I) State.reset.fetched).2.sp ≠ 0) ∧
    ((State.reset.setSp 1).skip = false ∧ (resolve .a (.reg .I) (State.reset.setSp 1).fetched).2.sp ≠ 0) := by
  decide

/-- `sp` 1 and 0xFFFF for the first clause, 0 and 0xFFFE for the second, 0xFFFF for the third. -/
theorem witness_JsrReadsItsOperandAfterThePush :
    ((State.reset.setSp 1).skip = false ∧ (State.reset.setSp 1).sp ≠ 0) ∧ State.reset.sp ≠ 0 ∧
    ((State.reset.setSp 0).skip = false ∧ (State.reset.setSp 0).sp ≠ 0xFFFF) ∧
    (State.reset.setSp 0xFFFE).sp ≠ 0xFFFF ∧ (State.reset.skip = false ∧ State.reset.sp = 0xFFFF) := by decide

/-- `sp` 0 before any operand, and `sp` 0xFFFF that a `POP` operand takes to 0. -/
theorem witness_JsrAtZeroStackPointerOverflows :
    ((State.reset.setSp 0).skip = false ∧ (resolve .a (.inline 5) (State.reset.setSp 0).fetched).2.sp = 0) ∧
    (State.reset.skip = false ∧ (resolve .a .stack State.reset.fetched).2.sp = 0) := by decide

theorem witness_ReturnUndoesTheCall :
    ∃ (a : Mode) (s t u : State), s.skip = false ∧ (resolve .a a s.fetched).2.sp ≠ 0 ∧
      exec (.jsr a) s = .next t ∧ u.skip = false ∧ u.sp = t.sp ∧ u.memRead t.sp = t.memRead t.sp :=
  ⟨.inline 5, State.reset, _, { bodyJsr (.lit 5) State.reset.fetched with regs := ⟨9, 9, 9, 9, 9, 9, 9, 9⟩ },
    rfl, by decide, rfl, rfl, rfl, rfl⟩

theorem witness_WritesToPcAreJumps : (loaded [0x8B82]).skip = false := rfl
theorem witness_PopReturnsThePushedWord : (State.reset.setSp 0).skip = false ∧ (State.reset.setSp 0).sp = 0 :=
  ⟨rfl, rfl⟩

/-- One instruction of each unsupported row. -/
theorem witness_UnsupportedWordsRaiseTheFatalCondition :
    State.reset.status = .running ∧ State.reset.skip = false ∧ isUnsupported (.unsupBasic 7 .stack .stack) = true ∧
      isUnsupported (.unsupSpecial00 .pc) = true ∧ isUnsupported (.unsupSpecial02 1 .pc) = true ∧
      isUnsupported (.unsupSpecial04 3 .pc) = true ∧ isUnsupported (.unsupSpecial08 7 .pc) = true ∧
      isUnsupported (.unsupSpecial10 15 .pc) = true := by decide

/-- The last clause: a running state that a dispatch leaves with the condition raised. -/
theorem witness_UnsupportedWords_only_they :
    ∃ t, exec (.unsupBasic 7 .stack .stack) State.reset = .next t ∧ State.reset.status = .running ∧
      t.status = .halted (.unsupportedInstruction 0) := ⟨_, rfl, rfl, by decide⟩

/-- Each of the two conditions, and neither. -/
theorem witness_FatalConditionsHaveNoOtherCause :
    State.reset.status = .running ∧
    (∃ t, exec (.unsupSpecial00 .stack) State.reset = .next t ∧ t.status = .halted (.unsupportedInstruction 0)) ∧
    (∃ t, exec (.jsr .stack) State.reset = .next t ∧ t.status = .halted .stackOverflow) ∧
    ∃ t, exec (.jsr .pc) State.reset = .next t ∧ t.status = .running :=
  ⟨rfl, ⟨_, rfl, by decide⟩, ⟨_, rfl, by decide +kernel⟩, ⟨_, rfl, by decide +kernel⟩⟩

/-- A form that stores at the last address, and one that stores nothing. -/
theorem witness_WritingInstructionsKeepEverythingElse :
    (∃ t, writesB (.add (.mem 0xFFFF) (.reg .B)) = true ∧
      exec (.add (.mem 0xFFFF) (.reg .B)) State.reset = .next t ∧
      storeAddr (.add (.mem 0xFFFF) (.reg .B)) State.reset = some 0xFFFF) ∧
    (∃ t, writesB (.mod (.reg .A) .stack) = true ∧ setsEx (.mod (.reg .A) .stack) = false ∧
      exec (.mod (.reg .A) .stack) State.reset = .next t ∧
      storeAddr (.mod (.reg .A) .stack) State.reset = none) :=
  ⟨⟨_, rfl, rfl, by decide⟩, ⟨_, rfl, rfl, rfl, by decide +kernel⟩⟩

theorem witness_ConditionalsWriteNothingButSkip :
    ∃ t, isIf (.ifu .stack .stack) = true ∧ exec (.ifu .stack .stack) State.reset = .next t := ⟨_, rfl, rfl⟩

/-- A call that stores, and an overflow that does not. -/
theorem witness_JsrKeepsEverythingElse :
    (∃ t, exec (.jsr .peek) State.reset = .next t ∧ storeAddr (.jsr .peek) State.reset = some 0xFFFE) ∧
    ∃ t, exec (.jsr .stack) State.reset = .next t ∧ storeAddr (.jsr .stack) State.reset = none :=
  ⟨⟨_, rfl, by decide⟩, ⟨_, rfl, by decide +kernel⟩⟩

/-- `ex` changed as a side effect, and as a destination. -/
theorem witness_ExChangesOnlyByTheListedInstructions :
    (∃ t, exec (.sub (.reg .A) (.inline 1)) State.reset = .next t ∧ t.ex ≠ State.reset.ex) ∧
    ∃ t, exec (.set .ex (.inline 1)) State.reset = .next t ∧ t.ex ≠ State.reset.ex :=
  ⟨⟨_, rfl, by decide⟩, ⟨_, rfl, by decide +kernel⟩⟩

theorem witness_DestinationExOverridesTheSideEffect :
    ∃ u, State.reset.skip = false ∧ (Instr.mul .ex (.inline 2)).bMode = some .ex ∧
      writesB (.mul .ex (.inline 2)) = true ∧ basicUse (.mul .ex (.inline 2)) = some u := ⟨_, rfl, rfl, rfl, rfl⟩

theorem witness_MemoryChangesByTheListedAccesses :
    ∃ t, exec (.add (.mem 0x1000) (.mem 0x1001)) State.reset = .next t := ⟨_, rfl⟩

theorem witness_UnnamedRegistersHaveNoInfluence :
    ∃ t, namesReg (.add (.reg .A) (.ind .B)) .J = false ∧
      exec (.add (.reg .A) (.ind .B)) State.reset = .next t := ⟨_, rfl, rfl⟩

/-- A dispatch that raises a condition, and one that raises none. -/
theorem witness_InstructionsNeverReadTheBookkeeping :
    (∃ t, exec (.jsr .stack) State.reset = .next t ∧ t.status = .halted .stackOverflow) ∧
    ∃ t, exec (.jsr .pc) State.reset = .next t ∧ t.status = .running :=
  ⟨⟨_, rfl, by decide⟩, ⟨_, rfl, by decide⟩⟩

/-- Codes at both sides of 0x18 that need no extra word, and both ends of the codes. -/
theorem witness_ResolutionTouchesOnlyPcAndSp :
    (needsExtra 0x00 = false ∧ needsExtra 0x0f = false ∧ needsExtra 0x19 = false ∧ needsExtra 0x3f = false) ∧
      (0x17 : BitVec 6) ≠ 0x18 ∧ (0x19 : BitVec 6) ≠ 0x18 := by decide

/-- A side effect executed, a side effect skipped, and none. -/
theorem witness_ExIsReadOnlyWhereItIsNamed :
    (Instr.add (.reg .A) .pc).bMode ≠ some .ex ∧ (Instr.add (.reg .A) .pc).aMode ≠ .ex ∧
    (∃ t, exec (.add (.reg .A) .pc) State.reset = .next t ∧ setsEx (.add (.reg .A) .pc) = true) ∧
    (∃ t, exec (.add (.reg .A) .pc) (State.reset.setSkip true) = .next t) ∧
    ∃ t, (Instr.ife (.reg .A) .pc).bMode ≠ some .ex ∧ (Instr.ife (.reg .A) .pc).aMode ≠ .ex ∧
      exec (.ife (.reg .A) .pc) State.reset = .next t :=
  ⟨by decide, by decide, ⟨_, rfl, rfl⟩, ⟨_, rfl⟩, ⟨_, by decide, by decide, rfl⟩⟩

end Sys2Proof.Tests
end

section
/-! SUPPORT. Fetch and resolution as one state, `passed`, and the reset memory. -/

namespace Sys2Proof.Machine

/-! ### The state after fetch and resolution -/

section Passed
variable (i : Instr) (s : State)

@[simp] theorem passed_regs : (passed i s).regs = s.regs := rfl
@[simp] theorem passed_x (r : Reg) : (passed i s).x r = s.x r := rfl
@[simp] theorem passed_pc : (passed i s).pc = s.pc + BitVec.ofNat 16 i.length := rfl
@[simp] theorem passed_sp : (passed i s).sp = s.sp + spMoves i := rfl
@[simp] theorem passed_ex : (passed i s).ex = s.ex := rfl
@[simp] theorem passed_skip : (passed i s).skip = s.skip := rfl
@[simp] theorem passed_status : (passed i s).status = s.status := rfl
@[simp] theorem passed_icount : (passed i s).icount = s.icount + 1 := rfl
@[simp] theorem passed_limit : (passed i s).limit = s.limit := rfl
@[simp] theorem passed_mem : (passed i s).mem = s.mem := rfl

end Passed

/-- Resolution moves `pc` past the mode's extra word and `sp` by the mode's move, and nothing else (R100). -/
theorem resolve_snd (h : Hint) (m : Mode) (s : State) :
    (resolve h m s).2 =
      { s with pc := s.pc + BitVec.ofNat 16 m.extra.length, sp := s.sp + spMove h m } := by
  rw [← resolve_pc h m s, ← resolve_sp h m s]
  cases m <;> cases h <;> rfl

/-- An instruction is its first word, `b`'s extra words and `a`'s (R75). -/
theorem length_eq (i : Instr) : i.length = 1 + i.bExtra.length + i.aMode.extra.length := by
  simp only [Instr.length, encode, List.length_cons, List.length_append]
  omega

theorem resolvedState_eq_passed (i : Instr) (s : State) : resolvedState i s = passed i s := by
  unfold resolvedState passed
  cases hb : i.bMode with
  | none =>
    simp [resolve_snd, State.fetched, State.advance, spMoves, length_eq, Instr.bExtra, hb,
      BitVec.ofNat_add, BitVec.add_assoc]
  | some b =>
    simp [resolveBoth, resolve_snd, State.fetched, State.advance, spMoves, length_eq, Instr.bExtra, hb,
      BitVec.ofNat_add, BitVec.add_assoc]

/-- Settles O25: resolution's effect is told by `resolve_snd`, once per operand. -/
theorem resolutionMovesOnlyPcAndSp : Obligations.ResolutionMovesOnlyPcAndSp :=
  resolvedState_eq_passed

/-- The resolved state of a basic instruction is `passed`. -/
theorem operandsOf_st {i : Instr} {b : Mode} (hb : i.bMode = some b) (s : State) :
    (operandsOf b i.aMode s).st = passed i s := by
  rw [← resolvedState_eq_passed]
  simp only [resolvedState, hb, operandsOf]

/-- The resolved state of a special instruction is `passed`. -/
theorem resolve_a_snd {i : Instr} (hb : i.bMode = none) (s : State) :
    (resolve .a i.aMode s.fetched).2 = passed i s := by
  rw [← resolvedState_eq_passed]
  simp only [resolvedState, hb]

/-! ### The image in memory -/

/-- Word `k` of a list loaded at `a` is read `k` words after `a`; elsewhere memory is as before (R241). -/
theorem read_load (ws : List Word) (m : Memory) (a p : Word) (hlen : ws.length ≤ 65536) :
    (m.load a ws).read p = ws.getD (p - a).toNat (m.read p) := by
  induction ws generalizing m a with
  | nil => rfl
  | cons w ws ih =>
    have hws : ws.length ≤ 65535 := Nat.le_of_succ_le_succ hlen
    rw [Memory.load, ih _ _ (by omega), read_write]
    by_cases hpa : p = a
    · have hlast : (p - (a + 1)).toNat = 65535 := by rw [hpa]; bv_omega
      rw [hlast, List.getD_eq_default _ _ hws, if_pos hpa, hpa, BitVec.sub_self]
      rfl
    · have hnext : (p - a).toNat = (p - (a + 1)).toNat + 1 := by bv_omega
      rw [if_neg hpa, hnext, List.getD_cons_succ]

/-- Every word of the reset memory reads as FILL (R36). -/
theorem read_reset (p : Word) : State.reset.mem.read p = 0x0000 :=
  (by decide : (Params.fillByte ++ Params.fillByte : Word) = 0x0000)

/-- Settles O14, by reading a loaded image back. -/
theorem resetLeavesTheStatedValues : Obligations.ResetLeavesTheStatedValues := by
  refine ⟨fun start image hlen => ?_, fun start image hlen => ?_, rfl⟩
  · refine ⟨_, if_pos hlen, fun r => by cases r <;> rfl, rfl, rfl, rfl, rfl, rfl, rfl, fun k hk => ?_⟩
    have hk' : (BitVec.ofNat 16 k - 0x0000).toNat = k := by simp; omega
    have hread := read_load image State.reset.mem 0x0000 (BitVec.ofNat 16 k) hlen
    rw [hk', read_reset] at hread
    exact hread
  · exact if_neg (Nat.not_le.mpr hlen)

end Sys2Proof.Machine
end

section
/-! SUPPORT. What a dispatch does, said once: a skipped instruction is passed over whole (R136), and an executed one
has one of five bodies (`ExecShape`). `Dispatched` lists what may stand after a dispatch. -/

namespace Sys2Proof.Machine

/-! ### Skipped and executed -/

section
variable {i : Instr} {b : Mode} {s : State}

/-- An executed basic instruction runs its body on its operands in the state after fetch and resolution (R135). -/
theorem exec_basic_executed (body : Operand → Operand → State → State) (hb : i.bMode = some b)
    (hd : exec i s = dispatchBasic body b i.aMode s) (hs : s.skip = false) :
    exec i s = .next (body (operandsOf b i.aMode s).b (operandsOf b i.aMode s).a (passed i s)) := by
  rw [hd, dispatchBasic_executed _ _ _ _ hs, ← operandsOf_st hb s]
  rfl

/-- The same for a special instruction. -/
theorem exec_special_executed (body : Operand → State → State) (hb : i.bMode = none)
    (hd : exec i s = dispatchSpecial body i.aMode s) (hs : s.skip = false) :
    exec i s = .next (body (resolve .a i.aMode s.fetched).1 (passed i s)) := by
  rw [hd, dispatchSpecial_executed _ _ _ hs, resolve_a_snd hb]

theorem exec_basic_skipped (body : Operand → Operand → State → State) (hb : i.bMode = some b)
    (hd : exec i s = dispatchBasic body b i.aMode s) (hs : s.skip = true) :
    exec i s = .next ((passed i s).setSkip false) := by
  rw [hd, dispatchBasic_skipped _ _ _ _ hs, ← operandsOf_st hb s]
  rfl

theorem exec_special_skipped (body : Operand → State → State) (hb : i.bMode = none)
    (hd : exec i s = dispatchSpecial body i.aMode s) (hs : s.skip = true) :
    exec i s = .next ((passed i s).setSkip false) := by
  rw [hd, dispatchSpecial_skipped _ _ _ hs, resolve_a_snd hb]

end

/-- A skipped instruction of any kind is passed over whole (R136, R204). -/
theorem exec_skipped (i : Instr) {s : State} (hs : s.skip = true) :
    exec i s = .next ((passed i s).setSkip false) := by
  cases i
  case jsr | unsupSpecial00 | unsupSpecial02 | unsupSpecial04 | unsupSpecial08 | unsupSpecial10 =>
    exact exec_special_skipped _ rfl rfl hs
  all_goals exact exec_basic_skipped _ rfl rfl hs

/-! ### The five bodies -/

/-- What an instruction does when it executes: which of the body shapes it has, on the state after resolution, with the
classes (`writesB`, `setsEx`, `isIf`, `isUnsupported`) and tables (`basicUse`, `ifPred`) that go with the shape. -/
inductive ExecShape (i : Instr) : Prop where
  /-- writes its destination and leaves `ex` alone (R138, R139) -/
  | write (b : Mode) (f : Word → Word → Word) (hb : i.bMode = some b) (hw : writesB i = true)
      (hx : setsEx i = false) (hu : ∃ r, basicUse i = some ⟨r, fun bv av => some (f bv av)⟩)
      (he : ∀ s, s.skip = false → exec i s =
        .next (writeBody f (operandsOf b i.aMode s).b (operandsOf b i.aMode s).a (passed i s)))
  /-- writes `ex`, then its destination (R28, R138) -/
  | writeEx (b : Mode) (g : Word → Word → AluResult) (hb : i.bMode = some b) (hw : writesB i = true)
      (hx : setsEx i = true) (hu : basicUse i = some ⟨true, fun bv av => some (g bv av).value⟩)
      (he : ∀ s, s.skip = false → exec i s =
        .next (writeExBody g (operandsOf b i.aMode s).b (operandsOf b i.aMode s).a (passed i s)))
  /-- a conditional (R180) -/
  | cond (b : Mode) (p : Word → Word → Bool) (hb : i.bMode = some b) (hi : isIf i = true)
      (hx : setsEx i = false) (hp : ifPred i = some p)
      (he : ∀ s, s.skip = false → exec i s =
        .next (condBody p (operandsOf b i.aMode s).b (operandsOf b i.aMode s).a (passed i s)))
  /-- a call (R200) -/
  | jsr (a : Mode) (hi : i = .jsr a)
      (he : ∀ s, s.skip = false → exec i s = .next (bodyJsr (resolve .a a s.fetched).1 (passed i s)))
  /-- a word with no semantics (R211) -/
  | unsupported (hu : isUnsupported i = true) (hx : setsEx i = false)
      (he : ∀ s, s.skip = false → exec i s =
        .next ((passed i s).setStatus (.halted (.unsupportedInstruction s.pc))))

/-- Every row of the opcode table has one of the five shapes. -/
theorem execShape (i : Instr) : ExecShape i := by
  cases i with
  | set b a => exact .write b (fun _ av => av) rfl rfl rfl ⟨_, rfl⟩ fun s hs => exec_basic_executed bodySet rfl rfl hs
  | mod b a => exact .write b aluMod rfl rfl rfl ⟨_, rfl⟩ fun s hs => exec_basic_executed bodyMod rfl rfl hs
  | mdi b a => exact .write b (aluMdi _) rfl rfl rfl ⟨_, rfl⟩ fun s hs => exec_basic_executed bodyMdi rfl rfl hs
  | and b a => exact .write b aluAnd rfl rfl rfl ⟨_, rfl⟩ fun s hs => exec_basic_executed bodyAnd rfl rfl hs
  | bor b a => exact .write b aluBor rfl rfl rfl ⟨_, rfl⟩ fun s hs => exec_basic_executed bodyBor rfl rfl hs
  | xor b a => exact .write b aluXor rfl rfl rfl ⟨_, rfl⟩ fun s hs => exec_basic_executed bodyXor rfl rfl hs
  | add b a => exact .writeEx b aluAdd rfl rfl rfl rfl fun s hs => exec_basic_executed bodyAdd rfl rfl hs
  | sub b a => exact .writeEx b aluSub rfl rfl rfl rfl fun s hs => exec_basic_executed bodySub rfl rfl hs
  | mul b a => exact .writeEx b aluMul rfl rfl rfl rfl fun s hs => exec_basic_executed bodyMul rfl rfl hs
  | mli b a => exact .writeEx b aluMli rfl rfl rfl rfl fun s hs => exec_basic_executed bodyMli rfl rfl hs
  | div b a => exact .writeEx b aluDiv rfl rfl rfl rfl fun s hs => exec_basic_executed bodyDiv rfl rfl hs
  | dvi b a => exact .writeEx b (aluDvi _) rfl rfl rfl rfl fun s hs => exec_basic_executed bodyDvi rfl rfl hs
  | shr b a => exact .writeEx b aluShr rfl rfl rfl rfl fun s hs => exec_basic_executed bodyShr rfl rfl hs
  | asr b a => exact .writeEx b aluAsr rfl rfl rfl rfl fun s hs => exec_basic_executed bodyAsr rfl rfl hs
  | shl b a => exact .writeEx b aluShl rfl rfl rfl rfl fun s hs => exec_basic_executed bodyShl rfl rfl hs
  | ifb b a => exact .cond b predIfb rfl rfl rfl rfl fun s hs => exec_basic_executed bodyIfb rfl rfl hs
  | ifc b a => exact .cond b predIfc rfl rfl rfl rfl fun s hs => exec_basic_executed bodyIfc rfl rfl hs
  | ife b a => exact .cond b predIfe rfl rfl rfl rfl fun s hs => exec_basic_executed bodyIfe rfl rfl hs
  | ifn b a => exact .cond b predIfn rfl rfl rfl rfl fun s hs => exec_basic_executed bodyIfn rfl rfl hs
  | ifg b a => exact .cond b predIfg rfl rfl rfl rfl fun s hs => exec_basic_executed bodyIfg rfl rfl hs
  | ifa b a => exact .cond b predIfa rfl rfl rfl rfl fun s hs => exec_basic_executed bodyIfa rfl rfl hs
  | ifl b a => exact .cond b predIfl rfl rfl rfl rfl fun s hs => exec_basic_executed bodyIfl rfl rfl hs
  | ifu b a => exact .cond b predIfu rfl rfl rfl rfl fun s hs => exec_basic_executed bodyIfu rfl rfl hs
  | jsr a => exact .jsr a rfl fun s hs => exec_special_executed bodyJsr rfl rfl hs
  | unsupBasic k b a =>
    exact .unsupported rfl rfl fun s hs => exec_basic_executed (bodyUnsupBasic s.pc) rfl rfl hs
  | unsupSpecial00 a | unsupSpecial02 k a | unsupSpecial04 k a | unsupSpecial08 k a | unsupSpecial10 k a =>
    exact .unsupported rfl rfl fun s hs => exec_special_executed (bodyUnsupSpecial s.pc) rfl rfl hs

/-! ### What may stand after a dispatch -/

/-- Each way a dispatch of `i` on `s` can end, with the state `t` it ends in. -/
inductive Dispatched (i : Instr) (s t : State) : Prop where
  /-- passed over whole (R136) -/
  | skipped (hs : s.skip = true) (ht : t = (passed i s).setSkip false)
  /-- `ex` written, or left with what it held, then the destination (R138) -/
  | wrote (b : Mode) (v e : Word) (hs : s.skip = false) (hb : i.bMode = some b) (hw : writesB i = true)
      (hx : setsEx i = true ∨ e = s.ex)
      (ht : t = writeOp (operandsOf b i.aMode s).b v ((passed i s).setEx e))
  /-- `skip` set or left clear by a conditional (R180) -/
  | tested (k : Bool) (hs : s.skip = false) (hi : isIf i = true) (ht : t = (passed i s).setSkip k)
  /-- pushed the address of the next instruction and jumped to `v` (R200) -/
  | called (a : Mode) (v : Word) (hs : s.skip = false) (hi : i = .jsr a) (hsp : (passed i s).sp ≠ 0)
      (ht : t = (((passed i s).setSp ((passed i s).sp - 1)).memWrite ((passed i s).sp - 1)
        (passed i s).pc).setPc v)
  /-- a call at `sp = 0` (R212) -/
  | overflowed (a : Mode) (hs : s.skip = false) (hi : i = .jsr a) (hsp : (passed i s).sp = 0)
      (ht : t = (passed i s).setStatus (.halted .stackOverflow))
  /-- a word with no semantics executed (R211) -/
  | unsupported (hs : s.skip = false) (hu : isUnsupported i = true)
      (ht : t = (passed i s).setStatus (.halted (.unsupportedInstruction s.pc)))

theorem exec_dispatched {i : Instr} {s t : State} (h : exec i s = .next t) : Dispatched i s t := by
  cases hs : s.skip with
  | true => exact .skipped hs (Host.Outcome.next.inj ((exec_skipped i hs).symm.trans h)).symm
  | false =>
    cases execShape i with
    | write b f hb hw _ _ he =>
      rw [he s hs] at h
      exact .wrote b _ s.ex hs hb hw (.inr rfl) (Host.Outcome.next.inj h).symm
    | writeEx b g hb hw hx _ he =>
      rw [he s hs] at h
      exact .wrote b _ _ hs hb hw (.inl hx) (Host.Outcome.next.inj h).symm
    | cond b p hb hi _ _ he =>
      rw [he s hs] at h
      obtain ⟨k, hk⟩ := condBody_frame p (operandsOf b i.aMode s).b (operandsOf b i.aMode s).a (passed i s)
      exact .tested k hs hi ((Host.Outcome.next.inj h).symm.trans hk)
    | jsr a hi he =>
      rw [he s hs] at h
      by_cases hsp : (passed i s).sp = 0
      · rw [bodyJsr_overflow _ _ hsp] at h
        exact .overflowed a hs hi hsp (Host.Outcome.next.inj h).symm
      · rw [bodyJsr_calls _ _ hsp] at h
        exact .called a _ hs hi hsp (Host.Outcome.next.inj h).symm
    | unsupported hu _ he =>
      rw [he s hs] at h
      exact .unsupported hs hu (Host.Outcome.next.inj h).symm

end Sys2Proof.Machine
end

section
/-! SUPPORT. The invariant: it holds after every reset and every step keeps it. -/

namespace Sys2Proof.Machine

/-! ### What every dispatch does to the fields -/

section Fields
variable {i : Instr} {s t : State}

/-- Every dispatch counts (R142). -/
theorem Dispatched.icount_eq (h : Dispatched i s t) : t.icount = s.icount + 1 := by
  cases h with
  | skipped _ ht | wrote _ _ _ _ _ _ _ ht | tested _ _ _ ht | called _ _ _ _ _ ht | overflowed _ _ _ _ ht
  | unsupported _ _ ht => simp [ht]

/-- No dispatch changes LIMIT (R131). -/
theorem Dispatched.limit_eq (h : Dispatched i s t) : t.limit = s.limit := by
  cases h with
  | skipped _ ht | wrote _ _ _ _ _ _ _ ht | tested _ _ _ ht | called _ _ _ _ _ ht | overflowed _ _ _ _ ht
  | unsupported _ _ ht => simp [ht]

/-- A write to an operand keeps the canonical form of memory. -/
theorem wf_writeOp (o : Operand) (v : Word) (s : State) (hm : s.mem.wf = true) : (writeOp o v s).mem.wf = true := by
  rw [writeOp_mem]
  cases o.memAddr with
  | none => exact hm
  | some p => exact wf_write _ p v hm

/-- A dispatch keeps the canonical form of memory: it stores through `writeOp` or by a push. -/
theorem Dispatched.wf_mem (h : Dispatched i s t) (hm : s.mem.wf = true) : t.mem.wf = true := by
  cases h with
  | wrote b v e _ _ _ _ ht => exact ht ▸ wf_writeOp _ v _ hm
  | called a v _ _ _ ht => exact ht ▸ wf_write _ _ _ hm
  | skipped _ ht | tested _ _ _ ht | overflowed _ _ _ _ ht | unsupported _ _ ht => exact ht ▸ hm

/-- The status stays, or one of the two fatal conditions is raised on the state its rule gives (R211, R212). -/
theorem Dispatched.status_cases (h : Dispatched i s t) :
    t.status = s.status ∨
      (t.status = .halted (.unsupportedInstruction s.pc) ∧ t.skip = false) ∨
      (t.status = .halted .stackOverflow ∧ t.sp = 0 ∧ t.skip = false) := by
  cases h with
  | skipped _ ht | wrote _ _ _ _ _ _ _ ht | tested _ _ _ ht | called _ _ _ _ _ ht => exact .inl (by simp [ht])
  | overflowed a hs _ hsp ht => exact .inr (.inr (by simpa [ht, hs] using hsp))
  | unsupported hs _ ht => exact .inr (.inl (by simp [ht, hs]))

end Fields

/-! ### The step -/

theorem budgetReached_iff (s : State) : budgetReached s = true ↔ ∃ n, s.limit = some n ∧ n ≤ s.icount := by
  unfold budgetReached
  cases s.limit <;> simp

/-- What a step can be: of a running core alone, the budget's halt or one dispatch (R130, R131, R213). -/
theorem step_next_cases {s t : State} (h : step s = .next t) :
    s.status = .running ∧
      ((budgetReached s = true ∧ t = s.setStatus (.halted .budgetExhausted)) ∨
        (budgetReached s = false ∧ exec (fetchInstr s) s = .next t)) := by
  unfold step at h
  cases hst : s.status with
  | halted c => simp [hst] at h
  | running =>
    cases hb : budgetReached s with
    | true => simpa [hst, hb, eq_comm] using h
    | false => simpa [hst, hb] using h

/-! ### The invariant -/

/-- A running state meets the invariant when its memory is canonical and LIMIT is not passed: the other clauses speak
of halted states. -/
theorem Inv.of_running {s : State} (hst : s.status = .running) (hm : s.mem.wf = true)
    (hl : ∀ n, s.limit = some n → s.icount ≤ n) : Inv s where
  memory := hm
  budget := hl
  unsupported _ h := by simp [hst] at h
  overflow h := by simp [hst] at h
  exhausted h := by simp [hst] at h

/-- The budget's halt comes exactly at LIMIT, because LIMIT is not passed before it (R213). -/
theorem inv_budget_halt {s : State} (hi : Inv s) (hb : budgetReached s = true) :
    Inv (s.setStatus (.halted .budgetExhausted)) where
  memory := hi.memory
  budget := hi.budget
  unsupported _ h := by simp at h
  overflow h := by simp at h
  exhausted _ := by
    obtain ⟨n, hl, hn⟩ := (budgetReached_iff s).mp hb
    have hle := hi.budget n hl
    simp [hl, Nat.le_antisymm hn hle]

/-- A dispatch of a running core below its LIMIT keeps the invariant. -/
theorem Dispatched.inv {i : Instr} {s t : State} (h : Dispatched i s t) (hi : Inv s)
    (hst : s.status = .running) (hb : budgetReached s = false) : Inv t := by
  have hm := h.wf_mem hi.memory
  have hl : ∀ n, t.limit = some n → t.icount ≤ n := fun n hn => by
    have hlt : ¬ n ≤ s.icount := fun hle =>
      absurd ((budgetReached_iff s).mpr ⟨n, h.limit_eq ▸ hn, hle⟩) (by simp [hb])
    rw [h.icount_eq]
    omega
  obtain hr | ⟨hu, hskip⟩ | ⟨ho, hsp, hskip⟩ := h.status_cases
  · exact .of_running (hr.trans hst) hm hl
  · exact ⟨hm, hl, fun _ _ => hskip, fun e => by simp [hu] at e, fun e => by simp [hu] at e⟩
  · exact ⟨hm, hl, fun _ _ => hskip, fun _ => ⟨hsp, hskip⟩, fun e => by simp [ho] at e⟩

/-- Settles O16, by the two things a step can be. -/
theorem stepKeepsTheInvariant : Obligations.StepKeepsTheInvariant := by
  intro s t hi h
  obtain ⟨hst, ⟨hb, rfl⟩ | ⟨hb, hexec⟩⟩ := step_next_cases h
  · exact inv_budget_halt hi hb
  · exact (exec_dispatched hexec).inv hi hst hb

/-- Settles O15: loading the image keeps memory canonical, and a reset core is running with no LIMIT. -/
theorem resetMeetsTheInvariant : Obligations.ResetMeetsTheInvariant := by
  refine ⟨.of_running rfl wf_reset (fun n h => nomatch h), fun start image s h => ?_⟩
  unfold hostReset at h
  split at h
  · cases h
    exact .of_running rfl (wf_load image _ _ wf_reset) fun n h => nomatch h
  · cases h

end Sys2Proof.Machine
end

section
/-! SUPPORT. Frames: what the writing instructions leave alone, where `ex` changes, and the jumps and the stack as uses
of `SET`, `ADD` and `SUB`. -/

namespace Sys2Proof.Machine

/-! ### Writing instructions -/

theorem isIf_eq_false_of_writesB {i : Instr} (hw : writesB i = true) : isIf i = false := by
  cases i <;> simp_all [writesB, isIf]

theorem isUnsupported_eq_false_of_writesB {i : Instr} (hw : writesB i = true) : isUnsupported i = false := by
  cases i <;> simp_all [writesB, isUnsupported]

theorem isUnsupported_eq_false_of_isIf {i : Instr} (hi : isIf i = true) : isUnsupported i = false := by
  cases i <;> simp_all [isIf, isUnsupported]

/-- An instruction of `writesB` was passed over, or it wrote `ex` (or left it) and then its destination. -/
theorem Dispatched.writesB_cases {i : Instr} {s t : State} (h : Dispatched i s t) (hw : writesB i = true) :
    (s.skip = true ∧ t = (passed i s).setSkip false) ∨
      ∃ b v e, s.skip = false ∧ i.bMode = some b ∧ (setsEx i = true ∨ e = s.ex) ∧
        t = writeOp (operandsOf b i.aMode s).b v ((passed i s).setEx e) := by
  cases h with
  | skipped hs ht => exact .inl ⟨hs, ht⟩
  | wrote b v e hs hb _ hx ht => exact .inr ⟨b, v, e, hs, hb, hx, ht⟩
  | tested _ _ hi => simp [isIf_eq_false_of_writesB hw] at hi
  | called a _ _ hi => simp [hi, writesB] at hw
  | overflowed a _ hi => simp [hi, writesB] at hw
  | unsupported _ hu => simp [isUnsupported_eq_false_of_writesB hw] at hu

/-- The word a writing instruction stores to is the one its destination names (R60 step 7). -/
theorem storeAddr_of_writesB {i : Instr} {s : State} {b : Mode} (hw : writesB i = true) (hs : s.skip = false)
    (hb : i.bMode = some b) : storeAddr i s = (operandsOf b i.aMode s).b.memAddr := by
  unfold storeAddr
  split
  · simp_all
  · split
    · simp [writesB] at hw
    · simp only [hb, operandsOf]

/-- A write to an operand leaves every byte outside the word it names alone. -/
theorem readByte_writeOp_of_ne {o : Operand} {k : Nat}
    (h : ∀ p, o.memAddr = some p → k ≠ byteAddr p ∧ k ≠ byteAddr p + 1) (v : Word) (s : State) :
    (writeOp o v s).mem.readByte k = s.mem.readByte k := by
  rw [writeOp_mem]
  cases ho : o.memAddr with
  | none => rfl
  | some p => exact readByte_write_of_ne _ p v k (h p ho).1 (h p ho).2

section Destination
variable (b a : Mode) (s : State)

theorem operandsOf_b_reg (r : Reg) : (operandsOf b a s).b = .reg r ↔ b = .reg r := resolve_fst_reg
theorem operandsOf_b_sp : (operandsOf b a s).b = .sp ↔ b = .sp := resolve_fst_sp
theorem operandsOf_b_pc : (operandsOf b a s).b = .pc ↔ b = .pc := resolve_fst_pc
theorem operandsOf_b_ex : (operandsOf b a s).b = .ex ↔ b = .ex := resolve_fst_ex

end Destination

/-- Settles O49: each element is read off `writeOp`'s laws, which change it only where the destination names it. -/
theorem writingInstructionsKeepEverythingElse : Obligations.WritingInstructionsKeepEverythingElse := by
  intro i s t hw h
  obtain ⟨hs, rfl⟩ | ⟨b, v, e, hs, hb, hx, rfl⟩ := (exec_dispatched h).writesB_cases hw
  · simp
  · simp only [hb, ne_eq, Option.some.injEq, storeAddr_of_writesB hw hs hb]
    refine ⟨fun r hr => ?_, fun hn hex => ?_, fun hsp => ?_, fun hpc => ?_, ?_, ?_, ?_, ?_, fun k hk => ?_⟩
    · simp [writeOp_x, operandsOf_b_reg, hr]
    · simpa [writeOp_ex, operandsOf_b_ex, hex, hn] using hx
    · simp [writeOp_sp, operandsOf_b_sp, hsp]
    · simp [writeOp_pc, operandsOf_b_pc, hpc]
    · simp [hs]
    · simp
    · simp
    · simp
    · exact readByte_writeOp_of_ne hk v _

/-! ### Where `ex` changes -/

/-- Settles O52: of the ways a dispatch can end, only a destination write can leave another `ex`. -/
theorem exChangesOnlyByTheListedInstructions : Obligations.ExChangesOnlyByTheListedInstructions := by
  intro i s t h hne
  cases exec_dispatched h with
  | skipped _ ht | tested _ _ _ ht | called _ _ _ _ _ ht | overflowed _ _ _ _ ht | unsupported _ _ ht =>
    exact absurd (by simp [ht]) hne
  | wrote b v e hs hb hw hx ht =>
    refine ⟨hs, hx.imp_right fun he => ⟨hw, ?_⟩⟩
    by_contra hbex
    have hb' : b ≠ .ex := fun e => hbex (hb.trans (congrArg some e))
    exact hne (by simp [ht, writeOp_ex, operandsOf_b_ex, hb', he])

/-- The content of the source of a basic instruction, read in the state after resolution. -/
theorem operandsOf_av {i : Instr} {b : Mode} (hb : i.bMode = some b) (s : State) :
    (operandsOf b i.aMode s).av = readOp (operandsOf b i.aMode s).a (passed i s) := by
  rw [Resolved.av, operandsOf_st hb]

/-- Settles O53: a destination `EX` reads the old `ex`, which resolution keeps, and takes the result last. -/
theorem destinationExOverridesTheSideEffect : Obligations.DestinationExOverridesTheSideEffect := by
  intro i s u hs hb hw hu
  cases execShape i with
  | write b f hb' _ _ hf he =>
    obtain rfl : b = .ex := Option.some.inj (hb'.symm.trans hb)
    obtain ⟨r, hf⟩ := hf
    obtain rfl := Option.some.inj (hf.symm.trans hu)
    exact ⟨_, he s hs, by rw [operandsOf_av hb]; rfl⟩
  | writeEx b g hb' _ _ hg he =>
    obtain rfl : b = .ex := Option.some.inj (hb'.symm.trans hb)
    obtain rfl := Option.some.inj (hg.symm.trans hu)
    exact ⟨_, he s hs, by rw [operandsOf_av hb]; rfl⟩
  | cond b p _ hi => simp [isIf_eq_false_of_writesB hw] at hi
  | jsr a hi => simp [hi, Instr.bMode] at hb
  | unsupported hn => simp [isUnsupported_eq_false_of_writesB hw] at hn

/-! ### Jumps and the stack -/

theorem aluAdd_value (bv av : Word) : (aluAdd bv av).value = bv + av := by
  simp [aluAdd, u16, uint, BitVec.ofInt_add]

theorem aluSub_value (bv av : Word) : (aluSub bv av).value = bv - av := by
  simp [aluSub, u16, uint, Int.sub_eq_add_neg, BitVec.ofInt_add, BitVec.ofInt_neg, BitVec.sub_eq_add_neg]

/-- Settles O45: with `b = PC`, the destination's content is the address after the instruction. -/
theorem writesToPcAreJumps : Obligations.WritesToPcAreJumps := by
  intro a s hs after av
  have hafter : (resolve .a a s.fetched).2.pc = after := by
    simp [after, BitVec.ofNat_add, BitVec.add_assoc]
  refine ⟨_, _, _, _, dispatchBasic_executed bodySet .pc a s hs, rfl,
    dispatchBasic_executed bodyAdd .pc a s hs, ?_, dispatchBasic_executed bodySub .pc a s hs, ?_,
    dispatchBasic_executed bodySub .pc (.inline 1) s hs, ?_⟩
  · exact (aluAdd_value _ _).trans (congrArg (· + av) hafter)
  · exact (aluSub_value _ _).trans (congrArg (· - av) hafter)
  · exact (aluSub_value _ _).trans (add_sub_cancel_right s.pc 1)

/-- Settles O46: the pop addresses the word at the `sp` the push left. -/
theorem popReturnsThePushedWord : Obligations.PopReturnsThePushedWord := by
  intro n r s hs
  have hpush := dispatchBasic_executed bodySet .stack (.lit n) s hs
  have hpop := dispatchBasic_executed bodySet (.reg r) .stack
    (bodySet (.mem (s.sp - 1)) (.lit n) (resolveBoth .stack (.lit n) s.fetched).st) hs
  refine ⟨_, _, hpush, rfl, ?_, rfl, hpop, ?_, ?_⟩ <;>
    simp [resolveBoth, resolve, bodySet, readOp, writeOp]

end Sys2Proof.Machine
end

section
/-! SUPPORT. Noninterference. A change of state that resolution and the body of an instruction do not see (`Unseen`)
before a dispatch is the same change after it (`exec_unseen`). The three changes are to a register that no operand
names, to `ex`, and to the bookkeeping. The raising of a condition is told apart first (`raisedBy`). -/

namespace Sys2Proof.Machine

/-! ### The condition a dispatch raises -/

/-- The fatal condition that a dispatch of `i` on `s` raises, if any: of an executed word with no semantics (R211), of
an executed `JSR` that finds `sp = 0` after resolution (R212). -/
def raisedBy (i : Instr) (s : State) : Option HaltCause :=
  if s.skip then none
  else if isUnsupported i then some (.unsupportedInstruction s.pc)
  else match i with
    | .jsr _ => if (passed i s).sp = 0 then some .stackOverflow else none
    | _ => none

section Raised
variable {i : Instr} {s : State}

theorem raisedBy_unsupported (hs : s.skip = false) (hu : isUnsupported i = true) :
    raisedBy i s = some (.unsupportedInstruction s.pc) := by
  simp [raisedBy, hs, hu]

theorem raisedBy_overflow {a : Mode} (hs : s.skip = false) (hi : i = .jsr a) (hsp : (passed i s).sp = 0) :
    raisedBy i s = some .stackOverflow := by
  subst hi
  rw [raisedBy, hs]
  exact if_pos hsp

/-- Only an executed unsupported word and an executed `JSR` at `sp = 0` raise a condition. -/
theorem raisedBy_eq_some {c : HaltCause} (h : raisedBy i s = some c) :
    s.skip = false ∧ ((isUnsupported i = true ∧ c = .unsupportedInstruction s.pc) ∨
      ∃ a, i = .jsr a ∧ (passed i s).sp = 0 ∧ c = .stackOverflow) := by
  unfold raisedBy at h
  split at h
  · simp at h
  · rename_i hs
    refine ⟨by simpa using hs, ?_⟩
    split at h
    · exact .inl ⟨‹_›, (Option.some.inj h).symm⟩
    · split at h
      · rename_i a _
        split at h
        · exact .inr ⟨a, rfl, ‹_›, (Option.some.inj h).symm⟩
        · simp at h
      · simp at h

/-- An executed word with no semantics raises its condition on the state after resolution (R211). -/
theorem exec_unsupported (hs : s.skip = false) (hu : isUnsupported i = true) :
    exec i s = .next ((passed i s).setStatus (.halted (.unsupportedInstruction s.pc))) := by
  cases execShape i with
  | unsupported _ _ he => exact he s hs
  | write _ _ _ hw | writeEx _ _ _ hw => simp [isUnsupported_eq_false_of_writesB hw] at hu
  | cond _ _ _ hi => simp [isUnsupported_eq_false_of_isIf hi] at hu
  | jsr a hi => simp [hi, isUnsupported] at hu

/-- A dispatch that raises a condition leaves the state after resolution with that status. -/
theorem exec_raised {c : HaltCause} (h : raisedBy i s = some c) :
    exec i s = .next ((passed i s).setStatus (.halted c)) := by
  obtain ⟨hs, ⟨hu, rfl⟩ | ⟨a, rfl, hsp, rfl⟩⟩ := raisedBy_eq_some h
  · exact exec_unsupported hs hu
  · rw [exec_special_executed (i := .jsr a) bodyJsr rfl rfl hs, bodyJsr_overflow _ _ hsp]

/-- A dispatch that raises none leaves the status. -/
theorem status_eq_of_raisedBy_none {t : State} (hr : raisedBy i s = none) (h : exec i s = .next t) :
    t.status = s.status := by
  cases exec_dispatched h with
  | skipped _ ht | tested _ _ _ ht | wrote _ _ _ _ _ _ _ ht | called _ _ _ _ _ ht => simp [ht]
  | overflowed a hs hi hsp => simp [raisedBy_overflow hs hi hsp] at hr
  | unsupported hs hu => simp [raisedBy_unsupported hs hu] at hr

end Raised

/-! ### Changes an operand does not see -/

/-- What `φ` changes, operand `o` does not read, and a write to `o` does not disturb. -/
structure Blind (φ : State → State) (o : Operand) : Prop where
  read : ∀ u, readOp o (φ u) = readOp o u
  write : ∀ v u, writeOp o v (φ u) = φ (writeOp o v u)

/-- `φ` changes neither `skip`, `sp`, `pc` nor memory, and no write to one of these disturbs what it changes. -/
structure Transparent (φ : State → State) : Prop where
  skip : ∀ u, (φ u).skip = u.skip
  sp : ∀ u, (φ u).sp = u.sp
  pc : ∀ u, (φ u).pc = u.pc
  setSkip : ∀ k u, (φ u).setSkip k = φ (u.setSkip k)
  setSp : ∀ v u, (φ u).setSp v = φ (u.setSp v)
  setPc : ∀ v u, (φ u).setPc v = φ (u.setPc v)
  memWrite : ∀ p v u, (φ u).memWrite p v = φ (u.memWrite p v)

section Bodies
variable {φ : State → State} {b a : Operand} (hb : Blind φ b) (ha : Blind φ a) (s : State)

include hb ha in
theorem writeBody_blind (f : Word → Word → Word) : writeBody f b a (φ s) = φ (writeBody f b a s) := by
  simp only [writeBody, hb.read, ha.read, hb.write]

include hb ha in
theorem writeExBody_blind (hex : ∀ e u, (φ u).setEx e = φ (u.setEx e)) (g : Word → Word → AluResult) :
    writeExBody g b a (φ s) = φ (writeExBody g b a s) := by
  simp only [writeExBody, hb.read, ha.read, hex, hb.write]

include hb ha in
theorem condBody_blind (hφ : Transparent φ) (p : Word → Word → Bool) :
    condBody p b a (φ s) = φ (condBody p b a s) := by
  simp only [condBody, hb.read, ha.read, hφ.setSkip, apply_ite φ]

include ha in
/-- Of a call that does not overflow. -/
theorem bodyJsr_blind (hφ : Transparent φ) (hsp : s.sp ≠ 0) : bodyJsr a (φ s) = φ (bodyJsr a s) := by
  rw [bodyJsr_calls a s hsp, bodyJsr_calls a (φ s) (by rwa [hφ.sp]), hφ.sp, hφ.pc, hφ.setSp, hφ.memWrite,
    ha.read, hφ.setPc]

end Bodies

/-! ### What resolution reads -/

/-- The operand of a mode depends on `sp` and on the registers the mode names, and on nothing else (R101 to R113). -/
theorem resolve_fst_congr {h : Hint} {m : Mode} {s u : State} (hx : ∀ r, modeNames m r = true → u.x r = s.x r)
    (hsp : u.sp = s.sp) : (resolve h m u).1 = (resolve h m s).1 := by
  cases m with
  | ind r | idx r n => simp [resolve, hx r (by simp [modeNames])]
  | stack => cases h <;> simp [resolve, hsp]
  | peek | pick n => simp [resolve, hsp]
  | reg r | sp | pc | ex | mem n | lit n | inline k => rfl

/-! ### Changes an instruction does not see -/

/-- The change `φ₀` before a dispatch of `i` on `s`, and `φ` after its fetch: resolution reads nothing of it, no operand
is among what it changes, and a side effect on `ex` does not disturb it. -/
structure Unseen (i : Instr) (s : State) (φ₀ φ : State → State) : Prop where
  before : Transparent φ₀
  after : Transparent φ
  passed : passed i (φ₀ s) = φ (passed i s)
  named : ∀ m, i.bMode = some m ∨ i.aMode = m → ∀ r, modeNames m r = true → ∀ u, (φ₀ u).x r = u.x r
  blind : ∀ m, i.bMode = some m ∨ i.aMode = m → ∀ h u, Blind φ (resolve h m u).1
  setEx : s.skip = false → setsEx i = true → ∀ e u, (φ u).setEx e = φ (u.setEx e)

section Unseen
variable {i : Instr} {s t : State} {φ₀ φ : State → State} (hU : Unseen i s φ₀ φ)
include hU

theorem Unseen.operandsOf_b {b : Mode} (hb : i.bMode = some b) :
    (operandsOf b i.aMode (φ₀ s)).b = (operandsOf b i.aMode s).b ∧ Blind φ (operandsOf b i.aMode s).b :=
  ⟨resolve_fst_congr (fun r hr => hU.named b (.inl hb) r hr s) (hU.before.sp s), hU.blind b (.inl hb) _ _⟩

theorem Unseen.operandsOf_a (b : Mode) :
    (operandsOf b i.aMode (φ₀ s)).a = (operandsOf b i.aMode s).a ∧ Blind φ (operandsOf b i.aMode s).a :=
  ⟨resolve_fst_congr (fun r hr => by simpa using hU.named i.aMode (.inr rfl) r hr s)
    (by simp [hU.before.sp]), hU.blind i.aMode (.inr rfl) _ _⟩

theorem Unseen.resolve_a :
    (resolve .a i.aMode (φ₀ s).fetched).1 = (resolve .a i.aMode s.fetched).1 ∧
      Blind φ (resolve .a i.aMode s.fetched).1 :=
  ⟨resolve_fst_congr (fun r hr => hU.named i.aMode (.inr rfl) r hr s) (hU.before.sp s),
    hU.blind i.aMode (.inr rfl) _ _⟩

/-- A dispatch that raises no condition carries an unseen change through. -/
theorem exec_unseen (hr : raisedBy i s = none) (h : exec i s = .next t) : exec i (φ₀ s) = .next (φ t) := by
  have hskip := hU.before.skip s
  cases hs : s.skip with
  | true =>
    rw [exec_skipped i hs] at h
    rw [exec_skipped i (hskip.trans hs), ← Host.Outcome.next.inj h, hU.passed, hU.after.setSkip]
  | false =>
    cases execShape i with
    | write b f hb _ _ _ he =>
      obtain ⟨hob, hbb⟩ := hU.operandsOf_b hb
      obtain ⟨hoa, hba⟩ := hU.operandsOf_a b
      rw [he s hs] at h
      rw [he _ (hskip.trans hs), ← Host.Outcome.next.inj h, hob, hoa, hU.passed, writeBody_blind hbb hba]
    | writeEx b g hb _ hx _ he =>
      obtain ⟨hob, hbb⟩ := hU.operandsOf_b hb
      obtain ⟨hoa, hba⟩ := hU.operandsOf_a b
      rw [he s hs] at h
      rw [he _ (hskip.trans hs), ← Host.Outcome.next.inj h, hob, hoa, hU.passed,
        writeExBody_blind hbb hba _ (hU.setEx hs hx)]
    | cond b p hb _ _ _ he =>
      obtain ⟨hob, hbb⟩ := hU.operandsOf_b hb
      obtain ⟨hoa, hba⟩ := hU.operandsOf_a b
      rw [he s hs] at h
      rw [he _ (hskip.trans hs), ← Host.Outcome.next.inj h, hob, hoa, hU.passed, condBody_blind hbb hba _ hU.after]
    | jsr a hi he =>
      obtain ⟨hoa, hba⟩ := hU.resolve_a
      have hsp : (passed i s).sp ≠ 0 := fun hsp => by
        simp [raisedBy_overflow hs hi hsp] at hr
      have ha : i.aMode = a := by rw [hi]; rfl
      rw [ha] at hoa hba
      rw [he s hs] at h
      rw [he _ (hskip.trans hs), ← Host.Outcome.next.inj h, hoa, hU.passed, bodyJsr_blind hba _ hU.after hsp]
    | unsupported hu => simp [raisedBy_unsupported hs hu] at hr

end Unseen

/-! ### A register no operand names -/

theorem transparent_setX (r : Reg) (v : Word) : Transparent (·.setX r v) := by
  constructor <;> intros <;> rfl

theorem setX_setX_comm {r q : Reg} (h : q ≠ r) (v w : Word) (s : State) :
    (s.setX r v).setX q w = (s.setX q w).setX r v := by
  have hregs : (s.regs.set r v).set q w = (s.regs.set q w).set r v := regs_ext_get _ _ fun p => by
    by_cases hp : p = q
    · simp [hp, h]
    · simp [hp]
  simp only [State.setX, hregs]

theorem blind_setX {o : Operand} {r : Reg} (h : o ≠ .reg r) (v : Word) : Blind (·.setX r v) o where
  read s := by
    cases o with
    | reg q => simp [readOp, show q ≠ r from fun e => h (congrArg _ e)]
    | sp | pc | ex | mem _ | lit _ => rfl
  write w s := by
    cases o with
    | reg q => exact setX_setX_comm (fun e => h (congrArg _ e)) v w s
    | sp | pc | ex | mem _ | lit _ => rfl

/-- An operand mode of an instruction that does not name `r` does not name it. -/
theorem modeNames_eq_false {i : Instr} {m : Mode} {r : Reg} (hn : namesReg i r = false)
    (hm : i.bMode = some m ∨ i.aMode = m) : modeNames m r = false := by
  rw [namesReg, Bool.or_eq_false_iff] at hn
  obtain hm | hm := hm
  · simpa [hm] using hn.1
  · exact hm ▸ hn.2

theorem unseen_setX {i : Instr} {r : Reg} (hn : namesReg i r = false) (v : Word) (s : State) :
    Unseen i s (·.setX r v) (·.setX r v) where
  before := transparent_setX r v
  after := transparent_setX r v
  passed := rfl
  named m hm q hq u := by
    have hne : q ≠ r := by rintro rfl; simp [modeNames_eq_false hn hm] at hq
    simp [hne]
  blind m hm h u := blind_setX (fun e => by
    rw [resolve_fst_reg] at e
    have hf := modeNames_eq_false hn hm
    simp [e, modeNames] at hf) v
  setEx _ _ _ _ := rfl

/-- Settles O55: the register is unseen; a condition is raised whatever it holds. -/
theorem unnamedRegistersHaveNoInfluence : Obligations.UnnamedRegistersHaveNoInfluence := by
  intro i r v s t hn h
  cases hr : raisedBy i s with
  | none => exact exec_unseen (unseen_setX hn v s) hr h
  | some c =>
    rw [exec_raised hr] at h
    rw [exec_raised (s := s.setX r v) hr, ← Host.Outcome.next.inj h]
    rfl

/-! ### The bookkeeping -/

/-- The state with other bookkeeping: `icount`, LIMIT and the status (R32, R33, R131). -/
def State.rebook (n : Nat) (l : Option Nat) (c : Status) (s : State) : State :=
  { s with icount := n, limit := l, status := c }

theorem transparent_rebook (n : Nat) (l : Option Nat) (c : Status) : Transparent (State.rebook n l c) := by
  constructor <;> intros <;> rfl

/-- No operand is part of the bookkeeping. -/
theorem blind_rebook (n : Nat) (l : Option Nat) (c : Status) (o : Operand) : Blind (State.rebook n l c) o := by
  constructor <;> intros <;> cases o <;> rfl

/-- The fetch counts from whatever `icount` was. -/
theorem unseen_rebook (i : Instr) (s : State) (n : Nat) (l : Option Nat) (c : Status) :
    Unseen i s (State.rebook n l c) (State.rebook (n + 1) l c) where
  before := transparent_rebook n l c
  after := transparent_rebook (n + 1) l c
  passed := rfl
  named _ _ _ _ _ := rfl
  blind _ _ _ _ := blind_rebook (n + 1) l c _
  setEx _ _ _ _ := rfl

/-- Settles O56: the condition is `raisedBy`, which reads no bookkeeping. -/
theorem instructionsNeverReadTheBookkeeping : Obligations.InstructionsNeverReadTheBookkeeping := by
  intro i s t h
  refine ⟨raisedBy i s, ?_⟩
  cases hr : raisedBy i s with
  | none => exact ⟨status_eq_of_raisedBy_none hr h, fun n l c => exec_unseen (unseen_rebook i s n l c) hr h⟩
  | some e =>
    rw [exec_raised hr] at h
    obtain rfl := Host.Outcome.next.inj h
    exact ⟨rfl, fun n l c => exec_raised (s := s.rebook n l c) hr⟩

/-! ### `ex` -/

theorem transparent_setEx (v : Word) : Transparent (·.setEx v) := by
  constructor <;> intros <;> rfl

theorem blind_setEx {o : Operand} (h : o ≠ .ex) (v : Word) : Blind (·.setEx v) o := by
  cases o with
  | ex => exact absurd rfl h
  | reg _ | sp | pc | mem _ | lit _ => constructor <;> intros <;> rfl

/-- An instruction that does not name `EX` does not see it, unless it executes a side effect on it. -/
theorem unseen_setEx {i : Instr} {s : State} (hb : i.bMode ≠ some .ex) (ha : i.aMode ≠ .ex)
    (hx : ¬(setsEx i = true ∧ s.skip = false)) (v : Word) : Unseen i s (·.setEx v) (·.setEx v) where
  before := transparent_setEx v
  after := transparent_setEx v
  passed := rfl
  named _ _ _ _ _ := rfl
  blind m hm h u := blind_setEx (fun e => by
    rw [resolve_fst_ex] at e
    subst e
    exact hm.elim hb ha) v
  setEx hs hi := absurd ⟨hi, hs⟩ hx

/-- Where the side effect executes, what `ex` held is overwritten unread. -/
theorem writeExBody_setEx {g : Word → Word → AluResult} {b a : Operand} (hb : b ≠ .ex) (ha : a ≠ .ex)
    (v : Word) (s : State) : writeExBody g b a (s.setEx v) = writeExBody g b a s := by
  simp only [writeExBody, (blind_setEx hb v).read, (blind_setEx ha v).read]
  rfl

/-- An instruction that executes a side effect on `ex` and does not name it: nothing depends on what `ex` held. -/
theorem exec_setEx_of_setsEx {i : Instr} {s t : State} (hb : i.bMode ≠ some .ex) (ha : i.aMode ≠ .ex)
    (hx : setsEx i = true) (hs : s.skip = false) (v : Word) (h : exec i s = .next t) :
    exec i (s.setEx v) = .next (t.setEx t.ex) := by
  cases execShape i with
  | writeEx b g hb' _ _ _ he =>
    have hbe : (operandsOf b i.aMode s).b ≠ .ex := fun e =>
      hb (hb'.trans (congrArg some ((operandsOf_b_ex b i.aMode s).mp e)))
    have hae : (operandsOf b i.aMode s).a ≠ .ex := fun e => ha (resolve_fst_ex.mp e)
    have hob : (operandsOf b i.aMode (s.setEx v)).b = (operandsOf b i.aMode s).b :=
      resolve_fst_congr (fun _ _ => rfl) rfl
    have hoa : (operandsOf b i.aMode (s.setEx v)).a = (operandsOf b i.aMode s).a :=
      resolve_fst_congr (fun r _ => by simp) (by simp)
    rw [he s hs] at h
    rw [he (s.setEx v) hs, hob, hoa, show passed i (s.setEx v) = (passed i s).setEx v from rfl,
      writeExBody_setEx hbe hae, h]
    rfl
  | write _ _ _ _ hn | cond _ _ _ _ hn | unsupported _ hn => simp [hn] at hx
  | jsr a hi => simp [hi, setsEx] at hx

/-- Settles O58: mode 0x1d resolves to `ex`; elsewhere `ex` is unseen, or overwritten unread. -/
theorem exIsReadOnlyWhereItIsNamed : Obligations.ExIsReadOnlyWhereItIsNamed := by
  refine ⟨fun h n v s => ⟨rfl, rfl, rfl⟩, fun i v s t hb ha h => ?_⟩
  by_cases hx : setsEx i = true ∧ s.skip = false
  · rw [if_pos hx]
    exact exec_setEx_of_setsEx hb ha hx.1 hx.2 v h
  · rw [if_neg hx]
    cases hr : raisedBy i s with
    | none => exact exec_unseen (unseen_setEx hb ha hx v) hr h
    | some c =>
      rw [exec_raised hr] at h
      rw [exec_raised (s := s.setEx v) hr, ← Host.Outcome.next.inj h]
      rfl

end Sys2Proof.Machine
end

section
/-! SUPPORT. The words at `pc`: the decoder consumes the words the first word asks for, and the first word comes back
from the decoded instruction. -/

namespace Sys2Proof

/-! ### Extra words -/

/-- A mode code looks at the extra word only where it consumes one (R74). -/
theorem decodeMode_congr {m : BitVec 6} {x y : Word} (h : needsExtra m = true → x = y) :
    decodeMode m x = decodeMode m y := by
  cases hm : needsExtra m with
  | true => rw [h hm]
  | false =>
    simp only [needsExtra, Bool.or_eq_false_iff, Bool.and_eq_false_iff, decide_eq_false_iff_not,
      beq_eq_false_iff_ne] at hm
    obtain ⟨⟨⟨hidx, hpick⟩, hmem⟩, hlit⟩ := hm
    simp only [decodeMode, if_neg hpick, if_neg hmem, if_neg hlit]
    by_cases hdirect : m.toNat ≤ 0x0f
    · simp only [if_pos hdirect]
    · have hpast : ¬ m.toNat ≤ 0x17 := by omega
      simp only [if_neg hpast]

/-- The decoder looks at no word after those the first word asks for (R74, R75). -/
theorem decodeWords_congr {w x1 x2 y1 y2 : Word}
    (h : [x1, x2].take (extraCount w) = [y1, y2].take (extraCount w)) :
    decodeWords w x1 x2 = decodeWords w y1 y2 := by
  unfold decodeWords
  by_cases ho : fieldO w = 0
  · have ha : needsExtra (fieldA w) = true → x1 = y1 := fun ha => by simpa [extraCount, ho, ha] using h
    simp only [if_pos ho, decodeMode_congr ha]
  · have hcount : extraCount w = (if needsExtra ((fieldB w).setWidth 6) then 1 else 0) +
        if needsExtra (fieldA w) then 1 else 0 := by
      simp only [extraCount, ne_eq, ho, not_false_eq_true, true_and]
    rw [hcount] at h
    have hb : needsExtra ((fieldB w).setWidth 6) = true → x1 = y1 := fun hb => by
      rw [if_pos hb, Nat.add_comm, List.take_succ_cons, List.take_succ_cons] at h
      exact List.head_eq_of_cons_eq h
    have ha : needsExtra (fieldA w) = true →
        (if needsExtra ((fieldB w).setWidth 6) then x2 else x1) =
          if needsExtra ((fieldB w).setWidth 6) then y2 else y1 := fun ha => by
      cases hb' : needsExtra ((fieldB w).setWidth 6) with
      | true => simpa [hb', ha, hb hb'] using h
      | false => simpa [hb', ha] using h
    simp only [if_neg ho, decodeMode_congr hb, decodeMode_congr ha]

theorem extraCount_le (w : Word) : extraCount w ≤ 2 := by
  unfold extraCount
  split_ifs <;> omega

/-- Three words in memory decode to the instruction their first word asks for, and what it does not consume is left
(R73 to R75). -/
theorem decode_bytesOf_three (w x1 x2 : Word) (rest : List Byte) :
    decode (bytesOf [w, x1, x2] ++ rest) =
      .ok (decodeWords w x1 x2, bytesOf ([x1, x2].drop (extraCount w)) ++ rest) := by
  have hle := extraCount_le w
  unfold decode
  rw [takeWord_bytesOf]
  match hn : extraCount w, hle with
  | 0, _ =>
    have hx : decodeWords w 0 0 = decodeWords w x1 x2 := decodeWords_congr (by rw [hn]; rfl)
    simp only [hn, hx]
    rfl
  | 1, _ =>
    have hx : decodeWords w x1 0 = decodeWords w x1 x2 := decodeWords_congr (by rw [hn]; rfl)
    simp only [hn, hx, takeWord_bytesOf]
    rfl
  | 2, _ =>
    simp only [hn, takeWord_bytesOf]
    rfl

/-! ### The first word -/

/-- Unpacking a word into its fields and packing them again (R73). -/
theorem pack_fields (w : Word) : pack (fieldO w) (fieldB w) (fieldA w) = w := by
  apply BitVec.eq_of_toNat_eq
  have hw := w.isLt
  simp only [fieldO, fieldB, fieldA, pack, BitVec.extractLsb'_toNat, BitVec.toNat_append]
  rw [← Nat.shiftLeft_add_eq_or_of_lt (by omega), ← Nat.shiftLeft_add_eq_or_of_lt (by omega)]
  simp only [Nat.shiftLeft_eq, Nat.shiftRight_eq_div_pow]
  omega

/-- A mode code comes back from the mode it names, whatever the extra word (R101 to R113). -/
@[simp] theorem code_decodeMode (m : BitVec 6) (x : Word) : (decodeMode m x).code = m := by
  have hx : (decodeMode m x).code = (decodeMode m 0).code := by
    simp only [decodeMode, apply_ite Mode.code]
    rfl
  rw [hx]
  clear hx
  revert m
  decide

/-- OPCODE_MAP, basic part, read both ways (R77, R79). -/
theorem opcode_basicOf {o : BitVec 5} (ho : o ≠ 0) (b a : Mode) : (basicOf o b a).opcode = (o, none) := by
  have hx : (basicOf o b a).opcode = (basicOf o .sp .sp).opcode := by
    simp only [basicOf]
    split <;> rfl
  rw [hx]
  clear hx
  revert o
  decide

theorem bMode_basicOf (o : BitVec 5) (b a : Mode) : (basicOf o b a).bMode = some b := by
  unfold basicOf
  split <;> rfl

theorem aMode_basicOf (o : BitVec 5) (b a : Mode) : (basicOf o b a).aMode = a := by
  unfold basicOf
  split <;> rfl

/-- OPCODE_MAP, special part, read both ways (R78, R80). -/
theorem opcode_specialOf (o : BitVec 5) (a : Mode) : (specialOf o a).opcode = (0, some o) := by
  have hx : (specialOf o a).opcode = (specialOf o .sp).opcode := by
    simp only [specialOf]
    split_ifs <;> rfl
  rw [hx]
  clear hx
  revert o
  decide

theorem aMode_specialOf (o : BitVec 5) (a : Mode) : (specialOf o a).aMode = a := by
  simp only [specialOf]
  split_ifs <;> rfl

/-- The first word comes back from the instruction decoded at it (R73). -/
@[simp] theorem firstWord_decodeWords (w x1 x2 : Word) : (decodeWords w x1 x2).firstWord = w := by
  have hb : ((fieldB w).setWidth 6).setWidth 5 = fieldB w := by simp
  unfold decodeWords
  by_cases ho : fieldO w = 0
  · simp only [if_pos ho, Instr.firstWord, Instr.middle, opcode_specialOf, aMode_specialOf, code_decodeMode]
    rw [← ho, pack_fields]
  · simp only [if_neg ho, Instr.firstWord, Instr.middle, opcode_basicOf ho, bMode_basicOf, aMode_basicOf,
      code_decodeMode, hb, pack_fields]

end Sys2Proof
end

section
/-! SUPPORT. The step on the words in memory: what is placed or stored at `pc` is fetched next (R58, R132), and a
running core always has a next state (R51, R216). -/

namespace Sys2Proof.Machine

/-! ### Memory -/

/-- Settles O20, by the byte and word laws of memory. -/
theorem readGivesTheLatestWrite : Obligations.ReadGivesTheLatestWrite :=
  fun m a v => ⟨fun b => read_write m a b v, readByte_write_of_ne m a v⟩

/-- Settles O13: the stored word is the first word read, and it comes back from the instruction decoded at it. -/
theorem storeIsSeenByTheNextFetch : Obligations.StoreIsSeenByTheNextFetch := by
  intro s w
  rw [fetchInstr, firstWord_decodeWords, memWrite_pc, memWrite_memRead, if_pos rfl]

/-! ### The step of a running core -/

/-- With budget left, a step is one dispatch of the instruction at `pc` (R130, R131). -/
theorem step_eq_exec {s : State} (hst : s.status = .running) (hb : budgetReached s = false) :
    step s = exec (fetchInstr s) s := by
  simp [step, hst, hb]

/-- With the budget used up, a step is the budget's halt (R213). -/
theorem step_eq_halt {s : State} (hst : s.status = .running) (hb : budgetReached s = true) :
    step s = .next (raise .budgetExhausted s) := by
  simp [step, hst, hb]

/-! ### A table word placed at `pc` -/

/-- The instruction fetched from three words placed at `pc` (R132). -/
theorem fetchInstr_placeWords (s : State) (w x1 x2 : Word) :
    fetchInstr (placeWords s [w, x1, x2]) = decodeWords w x1 x2 := by
  have hread (p : Word) :
      (placeWords s [w, x1, x2]).memRead p = [w, x1, x2].getD (p - s.pc).toNat (s.memRead p) :=
    read_load _ s.mem s.pc p (by simp)
  have hpc : (placeWords s [w, x1, x2]).pc = s.pc := rfl
  simp only [fetchInstr, hpc, hread, BitVec.sub_self, add_sub_cancel_left]
  rfl

/-- A placed table word is fetched as the instruction the table word decodes to (R132). -/
theorem decodeTableWord_eq_fetchInstr (nbits w : Nat) (s : State) :
    decodeTableWord nbits w = some (fetchInstr (s.withFetchWord nbits w)) := by
  rw [State.withFetchWord, tableWords, fetchInstr_placeWords, decodeTableWord, tableWords,
    ← List.append_nil (bytesOf _), decode_bytesOf_three]

/-- Settles O9: the words placed at `pc` are fetched as the table word decodes, and the budget test passes. -/
theorem placedWordIsTheNextInstruction : Obligations.PlacedWordIsTheNextInstruction := by
  intro s nbits w i hst hb h
  obtain rfl : fetchInstr (s.withFetchWord nbits w) = i :=
    Option.some.inj ((decodeTableWord_eq_fetchInstr nbits w s).symm.trans h)
  exact step_eq_exec hst hb

/-! ### No dispatch ends but in a next state -/

/-- Every instruction, skipped or in any of its five shapes, answers a next state (R51, R216). -/
theorem exists_exec_eq_next (i : Instr) (s : State) : ∃ t, exec i s = .next t := by
  cases hs : s.skip with
  | true => exact ⟨_, exec_skipped i hs⟩
  | false =>
    cases execShape i with
    | write _ _ _ _ _ _ he | writeEx _ _ _ _ _ _ he | cond _ _ _ _ _ _ he | jsr _ _ he | unsupported _ _ he =>
      exact ⟨_, he s hs⟩

/-- Settles O12: a dispatch answers a next state and counts; the budget's halt is a next state too. -/
theorem runningCoreAlwaysHasANextState : Obligations.RunningCoreAlwaysHasANextState := by
  refine ⟨fun i s => ?_, fun s hst => ?_⟩
  · obtain ⟨t, ht⟩ := exists_exec_eq_next i s
    exact ⟨t, ht, (exec_dispatched ht).icount_eq⟩
  · cases hb : budgetReached s with
    | true => exact ⟨_, step_eq_halt hst hb⟩
    | false => exact step_eq_exec hst hb ▸ exists_exec_eq_next (fetchInstr s) s

end Sys2Proof.Machine
end

section
/-! SUPPORT. The access list of R60 and memory after a dispatch. `Explains n l m m'` is what is shown of each part of
the list: it turns `m` into `m'`, with at most `n` accesses and one write. -/

namespace Sys2Proof.Machine

/-! ### Lists of accesses -/

/-- The access stores a word. -/
def Access.isWrite : Access → Bool
  | .write _ _ => true
  | .read _ => false

theorem applyAccesses_append (m : Memory) (l l' : List Access) :
    applyAccesses m (l ++ l') = applyAccesses (applyAccesses m l) l' := by
  induction l generalizing m with
  | nil => rfl
  | cons x l ih =>
    cases x with
    | read p => exact ih m
    | write p v => exact ih (m.write p v)

/-- Reads change nothing (R56). -/
theorem applyAccesses_of_reads {l : List Access} (h : l.filter Access.isWrite = []) (m : Memory) :
    applyAccesses m l = m := by
  induction l with
  | nil => rfl
  | cons x l ih =>
    cases x with
    | read p => exact ih h
    | write p v => cases h

/-- The accesses `l` turn the memory `m` into `m'`; they are at most `n`, at most one of them a write. -/
structure Explains (n : Nat) (l : List Access) (m m' : Memory) : Prop where
  mem : m' = applyAccesses m l
  length : l.length ≤ n
  writes : (l.filter Access.isWrite).length ≤ 1

theorem explains_nil (n : Nat) (m : Memory) : Explains n [] m m :=
  ⟨rfl, Nat.zero_le n, Nat.zero_le 1⟩

theorem explains_write (p v : Word) (m : Memory) : Explains 1 [.write p v] m (m.write p v) :=
  ⟨rfl, le_rfl, le_rfl⟩

section Append
variable {n k : Nat} {r l : List Access} {m m' : Memory}

/-- Reads before the accesses. -/
theorem Explains.reads_append (h : Explains n l m m') (hr : r.filter Access.isWrite = []) (hk : r.length ≤ k) :
    Explains (k + n) (r ++ l) m m' where
  mem := by rw [applyAccesses_append, applyAccesses_of_reads hr, ← h.mem]
  length := by simpa using Nat.add_le_add hk h.length
  writes := by simpa [hr] using h.writes

/-- Reads after the accesses. -/
theorem Explains.append_reads (h : Explains n l m m') (hr : r.filter Access.isWrite = []) (hk : r.length ≤ k) :
    Explains (n + k) (l ++ r) m m' where
  mem := by rw [applyAccesses_append, applyAccesses_of_reads hr, ← h.mem]
  length := by simpa using Nat.add_le_add h.length hk
  writes := by simpa [hr] using h.writes

end Append

/-! ### The reads -/

theorem readAccess_reads (o : Operand) : (readAccess o).filter Access.isWrite = [] := by cases o <;> rfl

theorem length_readAccess_le (o : Operand) : (readAccess o).length ≤ 1 := by
  cases o <;> simp [readAccess, Operand.memAddr]

theorem fetchAccesses_reads (i : Instr) (s : State) : (fetchAccesses i s).filter Access.isWrite = [] := by
  simp [fetchAccesses, Access.isWrite]

theorem length_fetchAccesses (i : Instr) (s : State) : (fetchAccesses i s).length = i.length := by
  simp [fetchAccesses]

/-- The reads of the operands of a basic instruction (R60 steps 4 and 5). -/
def operandReads (u : BasicUse) (b a : Operand) : List Access :=
  (if u.readsB then readAccess b else []) ++ readAccess a

theorem operandReads_reads (u : BasicUse) (b a : Operand) : (operandReads u b a).filter Access.isWrite = [] := by
  unfold operandReads
  split_ifs <;> simp [readAccess_reads]

theorem length_operandReads_le (u : BasicUse) (b a : Operand) : (operandReads u b a).length ≤ 2 := by
  have hb := length_readAccess_le b
  have ha := length_readAccess_le a
  unfold operandReads
  split_ifs <;> simp <;> omega

/-! ### The body -/

section Body
variable {u : BasicUse} {b a : Operand} {s : State}

/-- A basic instruction with a result writes it to its destination, after its reads (R60 step 7). -/
theorem explains_basic_result {v : Word} (hv : u.result (readOp b s) (readOp a s) = some v) :
    Explains 3 (basicAccesses u b a s) s.mem (writeOp b v s).mem := by
  have hr := operandReads_reads u b a
  have hn := length_operandReads_le u b a
  cases b with
  | mem p =>
    have hacc : basicAccesses u (.mem p) a s = operandReads u (.mem p) a ++ [.write p v] := by
      rw [basicAccesses, hv]
      rfl
    exact hacc ▸ (explains_write p v s.mem).reads_append hr hn
  | reg _ | sp | pc | ex | lit _ => exact (explains_nil 1 s.mem).reads_append hr hn

/-- A basic instruction with no result only reads (R180). -/
theorem explains_basic_no_result (hv : u.result (readOp b s) (readOp a s) = none) :
    Explains 3 (basicAccesses u b a s) s.mem s.mem := by
  have hacc : basicAccesses u b a s = operandReads u b a ++ [] := by
    rw [basicAccesses, hv]
    cases b <;> rfl
  exact hacc ▸ (explains_nil 1 s.mem).reads_append (operandReads_reads u b a) (length_operandReads_le u b a)

/-- A call pushes, then reads its operand; a stack overflow accesses nothing (R200, R203). -/
theorem explains_jsr (a : Operand) (s : State) : Explains 3 (jsrAccesses a s) s.mem (bodyJsr a s).mem := by
  unfold jsrAccesses
  by_cases hsp : s.sp = 0
  · rw [if_pos hsp, bodyJsr_overflow a s hsp]
    exact explains_nil 3 s.mem
  · rw [if_neg hsp, bodyJsr_calls a s hsp]
    exact (explains_write (s.sp - 1) s.pc s.mem).append_reads (k := 2) (readAccess_reads a)
      ((length_readAccess_le a).trans (by decide))

end Body

/-- The side effect on `ex` does not touch memory: only the destination write does (R138). -/
theorem writeExBody_mem_eq_writeOp (g : Word → Word → AluResult) (b a : Operand) (s : State) :
    (writeExBody g b a s).mem = (writeOp b (g (readOp b s) (readOp a s)).value s).mem := by
  cases b <;> rfl

/-! ### The access list of an instruction -/

section Instruction
variable {i : Instr} {s t : State}

/-- An executed basic instruction accesses what its use of its operands says. -/
theorem bodyAccesses_basic {b : Mode} {u : BasicUse} (hs : s.skip = false) (hb : i.bMode = some b)
    (hu : basicUse i = some u) : bodyAccesses i s =
      basicAccesses u (operandsOf b i.aMode s).b (operandsOf b i.aMode s).a (passed i s) := by
  rw [← operandsOf_st hb]
  cases i
  case jsr => cases hb
  all_goals simp [bodyAccesses, hs, hb, hu, operandsOf]

theorem bodyAccesses_jsr (a : Mode) (hs : s.skip = false) :
    bodyAccesses (.jsr a) s = jsrAccesses (resolve .a a s.fetched).1 (passed (.jsr a) s) := by
  rw [← resolve_a_snd rfl]
  simp [bodyAccesses, hs, Instr.aMode]

/-- A word with no semantics accesses nothing after its resolution (R211). -/
theorem bodyAccesses_unsupported (hu : isUnsupported i = true) : bodyAccesses i s = [] := by
  cases i <;> simp_all [isUnsupported, bodyAccesses, basicUse]

theorem basicUse_of_ifPred {p : Word → Word → Bool} (hp : ifPred i = some p) :
    basicUse i = some ⟨true, fun _ _ => none⟩ := by
  cases i <;> simp_all [ifPred, basicUse]

/-- The accesses of the body account for memory after the dispatch (R60 steps 4 to 7). -/
theorem explains_body (h : exec i s = .next t) : Explains 3 (bodyAccesses i s) s.mem t.mem := by
  cases hs : s.skip with
  | true =>
    obtain rfl := Host.Outcome.next.inj ((exec_skipped i hs).symm.trans h)
    have hnone : bodyAccesses i s = [] := if_pos hs
    exact hnone ▸ explains_nil 3 s.mem
  | false =>
    cases execShape i with
    | write b f hb _ _ hu he =>
      obtain rfl := Host.Outcome.next.inj ((he s hs).symm.trans h)
      obtain ⟨r, hu⟩ := hu
      exact bodyAccesses_basic hs hb hu ▸ explains_basic_result rfl
    | writeEx b g hb _ _ hu he =>
      obtain rfl := Host.Outcome.next.inj ((he s hs).symm.trans h)
      rw [bodyAccesses_basic hs hb hu, writeExBody_mem_eq_writeOp]
      exact explains_basic_result rfl
    | cond b p hb _ _ hp he =>
      obtain rfl := Host.Outcome.next.inj ((he s hs).symm.trans h)
      obtain ⟨k, hk⟩ := condBody_frame p (operandsOf b i.aMode s).b (operandsOf b i.aMode s).a (passed i s)
      rw [bodyAccesses_basic hs hb (basicUse_of_ifPred hp), hk]
      exact explains_basic_no_result rfl
    | jsr a hi he =>
      obtain rfl := Host.Outcome.next.inj ((he s hs).symm.trans h)
      subst hi
      exact bodyAccesses_jsr a hs ▸ explains_jsr _ _
    | unsupported hu _ he =>
      obtain rfl := Host.Outcome.next.inj ((he s hs).symm.trans h)
      exact bodyAccesses_unsupported hu ▸ explains_nil 3 s.mem

/-- The whole list accounts for memory after the dispatch (R60). -/
theorem explains_accesses (h : exec i s = .next t) : Explains (i.length + 3) (accesses i s) s.mem t.mem :=
  (explains_body h).reads_append (fetchAccesses_reads i s) (length_fetchAccesses i s).le

end Instruction

/-- An instruction has at most three words (R75). -/
theorem length_le_three (i : Instr) : i.length ≤ 3 := by
  cases hb : i.bMode with
  | none => exact (Laws.EncodeLength.special _ i hb rfl).2
  | some b => exact (Laws.EncodeLength.basic b _ i hb rfl).2

/-- Settles O54: the fetch reads come first, and the body's accesses account for memory. -/
theorem memoryChangesByTheListedAccesses : Obligations.MemoryChangesByTheListedAccesses := by
  intro i s t h
  have hacc := explains_accesses h
  refine ⟨hacc.mem, List.take_left' (length_fetchAccesses i s), ?_, hacc.writes⟩
  exact hacc.length.trans (Nat.add_le_add_right (length_le_three i) 3)

end Sys2Proof.Machine
end

section
/-! SUPPORT. The decoder and the encoder as inverses: OPCODE_MAP and the extra words read both ways (R74, R77 to R80),
then whole instructions, as words and as bytes (R70, R73). -/

namespace Sys2Proof

/-! ### OPCODE_MAP from the instruction -/

/-- From 0x18 on a basic opcode has no semantics; the row leaves its low three bits open (R79). -/
theorem basicOf_of_ge {o : BitVec 5} (ho : 0x18 ≤ o.toNat) (b a : Mode) :
    basicOf o b a = .unsupBasic (BitVec.ofNat 3 (o.toNat - 0x18)) b a := by
  unfold basicOf
  split
  case h_24 => rfl
  all_goals omega

/-- A basic instruction comes back from its opcode and its operands (R71, R77, R79). -/
theorem exists_basicOf_eq {i : Instr} {b : Mode} (hb : i.bMode = some b) :
    ∃ o, o ≠ 0 ∧ i.opcode = (o, none) ∧ basicOf o b i.aMode = i := by
  cases i <;> cases hb
  case unsupBasic k a =>
    have hk := k.isLt
    have ho : (BitVec.ofNat 5 (0x18 + k.toNat)).toNat = 0x18 + k.toNat := Nat.mod_eq_of_lt (by omega)
    refine ⟨_, BitVec.toNat_ne_iff_ne.mp (by rw [ho]; simp), rfl, ?_⟩
    rw [basicOf_of_ge (by omega), ho]
    simp [Instr.aMode]
  all_goals exact ⟨_, by decide, rfl, rfl⟩

/-- A special instruction comes back from its opcode and its operand (R72, R78, R80). -/
theorem exists_specialOf_eq {i : Instr} (hb : i.bMode = none) :
    ∃ s, i.opcode = (0, some s) ∧ specialOf s i.aMode = i := by
  cases i <;> cases hb
  case jsr | unsupSpecial00 => exact ⟨_, rfl, rfl⟩
  all_goals
    rename_i k a
    have hk := k.isLt
    refine ⟨_, rfl, ?_⟩
    simp (disch := omega) [specialOf, Nat.mod_eq_of_lt, Instr.aMode, if_neg, if_pos]

theorem bMode_specialOf (o : BitVec 5) (a : Mode) : (specialOf o a).bMode = none := by
  simp only [specialOf]
  split_ifs <;> rfl

/-! ### Extra words -/

/-- The extra words of a mode are told by its code (R74). -/
theorem extra_decodeMode (m : BitVec 6) (x : Word) :
    (decodeMode m x).extra = if needsExtra m then [x] else [] := by
  have hx : (decodeMode m x).extra = (decodeMode m 0).extra.map fun _ => x := by
    simp only [decodeMode, apply_ite Mode.extra, apply_ite (List.map fun _ => x)]
    rfl
  have h0 : (decodeMode m 0).extra = if needsExtra m then [0] else [] := by
    clear hx
    revert m
    decide
  rw [hx, h0, apply_ite (List.map fun _ => x)]
  rfl

/-- A mode has no extra word, or the first word of any list its extra words begin (R74). -/
theorem extra_of_prefix {m : Mode} {x : Word} {xs : List Word} (h : m.extra <+: x :: xs) :
    m.extra = [] ∨ m.extra = [x] := by
  have hl := extra_length_le m
  match hm : m.extra with
  | [] => exact .inl rfl
  | [n] =>
    rw [hm, List.cons_prefix_cons] at h
    exact .inr (by rw [h.1])
  | _ :: _ :: _ => simp [hm] at hl

/-- A code of the 5-bit field names a mode that fits the field (R76, R121). -/
theorem fitsB_decodeMode (b : BitVec 5) (x : Word) : (decodeMode (b.setWidth 6) x).fitsB = true := by
  have hx : (decodeMode (b.setWidth 6) x).fitsB = (decodeMode (b.setWidth 6) 0).fitsB := by
    simp only [decodeMode, apply_ite Mode.fitsB]
    rfl
  rw [hx]
  clear hx
  revert b
  decide

/-! ### Whole instructions -/

theorem wellFormed_decodeWords (w x1 x2 : Word) : (decodeWords w x1 x2).wellFormed = true := by
  unfold decodeWords Instr.wellFormed
  by_cases ho : fieldO w = 0
  · simp only [if_pos ho, bMode_specialOf]
  · simp only [if_neg ho, bMode_basicOf, fitsB_decodeMode]

/-- The decoded instruction has the extra words its first word asks for, `b`'s before `a`'s (R74, R75). -/
theorem extras_decodeWords (w x1 x2 : Word) :
    (decodeWords w x1 x2).bExtra ++ (decodeWords w x1 x2).aMode.extra = [x1, x2].take (extraCount w) := by
  unfold decodeWords Instr.bExtra extraCount
  by_cases ho : fieldO w = 0
  · simp only [if_pos ho, bMode_specialOf, aMode_specialOf, extra_decodeMode]
    cases needsExtra (fieldA w) <;> simp [ho]
  · simp only [ne_eq, ho, not_false_eq_true, true_and, if_false, bMode_basicOf, aMode_basicOf, extra_decodeMode]
    cases needsExtra ((fieldB w).setWidth 6) <;> cases needsExtra (fieldA w) <;> rfl

theorem encode_decodeWords (w x1 x2 : Word) :
    encode (decodeWords w x1 x2) = w :: [x1, x2].take (extraCount w) := by
  rw [encode, firstWord_decodeWords, extras_decodeWords]

/-- A well-formed instruction is decoded from its first word and any words that its extra words begin (R70 to R74). -/
theorem decodeWords_firstWord {i : Instr} {x1 x2 : Word} (hw : i.wellFormed = true)
    (hx : i.bExtra ++ i.aMode.extra <+: [x1, x2]) : decodeWords i.firstWord x1 x2 = i := by
  unfold decodeWords Instr.firstWord Instr.middle
  cases hb : i.bMode with
  | none =>
    obtain ⟨s, hop, hi⟩ := exists_specialOf_eq hb
    simp only [Instr.bExtra, hb, List.nil_append] at hx
    simp only [hop, fieldO_pack, fieldB_pack, fieldA_pack, if_pos, decodeMode_code _ _ (extra_of_prefix hx), hi]
  | some b =>
    obtain ⟨o, ho, hop, hi⟩ := exists_basicOf_eq hb
    have hfits : b.fitsB = true := by simpa [Instr.wellFormed, hb] using hw
    simp only [Instr.bExtra, hb] at hx
    have hbx := extra_of_prefix ((List.prefix_append _ _).trans hx)
    have hax : i.aMode.extra = [] ∨ i.aMode.extra = [if needsExtra b.code then x2 else x1] := by
      rw [needsExtra_code]
      obtain hb0 | hb1 := hbx
      · rw [hb0] at hx ⊢
        exact extra_of_prefix hx
      · rw [hb1] at hx ⊢
        exact extra_of_prefix (List.cons_prefix_cons.mp hx).2
    simp only [hop, fieldO_pack, fieldB_pack, fieldA_pack, if_neg ho, code_setWidth b hfits,
      decodeMode_code _ _ hbx, decodeMode_code _ _ hax, hi]

/-- The first word and the words it asks for, followed by anything, decode and leave what follows (R73 to R75). -/
theorem decode_bytesOf_consumed (w x1 x2 : Word) (rest : List Byte) :
    decode (bytesOf (w :: [x1, x2].take (extraCount w)) ++ rest) = .ok (decodeWords w x1 x2, rest) := by
  have hle := extraCount_le w
  unfold decode
  rw [takeWord_bytesOf]
  match hn : extraCount w, hle with
  | 0, _ =>
    have hx : decodeWords w 0 0 = decodeWords w x1 x2 := decodeWords_congr (by rw [hn]; rfl)
    simp only [hn, hx]
    rfl
  | 1, _ =>
    have hx : decodeWords w x1 0 = decodeWords w x1 x2 := decodeWords_congr (by rw [hn]; rfl)
    simp only [hn, List.take_succ_cons, takeWord_bytesOf, hx]
    rfl
  | 2, _ =>
    simp only [hn, List.take_succ_cons, takeWord_bytesOf]
    rfl

/-- At most two words begin some pair of words. -/
theorem exists_prefix_pair {xs : List Word} (h : xs.length ≤ 2) : ∃ x1 x2 : Word, xs <+: [x1, x2] :=
  match xs, h with
  | [], _ => ⟨0, 0, List.nil_prefix⟩
  | [x1], _ => ⟨x1, 0, List.prefix_append [x1] [0]⟩
  | [x1, x2], _ => ⟨x1, x2, List.prefix_refl _⟩

end Sys2Proof
end

section
/-! SUPPORT. The opcode table: a first word lies in the row of its instruction (R73), and no two rows share a word
(R81). -/

namespace Sys2Proof

/-! ### The row of a first word -/

/-- A word is its three fields (R73). -/
theorem eq_iff_fields_eq {w v : Word} :
    w = v ↔ fieldO w = fieldO v ∧ fieldB w = fieldB v ∧ fieldA w = fieldA v := by
  refine ⟨fun h => ⟨h ▸ rfl, h ▸ rfl, h ▸ rfl⟩, fun ⟨ho, hb, ha⟩ => ?_⟩
  rw [← pack_fields w, ho, hb, ha, pack_fields]

theorem fieldO_and (w v : Word) : fieldO (w &&& v) = fieldO w &&& fieldO v := BitVec.extractLsb'_and
theorem fieldB_and (w v : Word) : fieldB (w &&& v) = fieldB w &&& fieldB v := BitVec.extractLsb'_and
theorem fieldA_and (w v : Word) : fieldA (w &&& v) = fieldA w &&& fieldA v := BitVec.extractLsb'_and

/-- A row is tested field by field. -/
theorem covers_pack (r : Row) (o b : BitVec 5) (a : BitVec 6) : r.covers (pack o b a) ↔
    o &&& fieldO r.mask = fieldO r.pattern ∧ b &&& fieldB r.mask = fieldB r.pattern ∧
      a &&& fieldA r.mask = fieldA r.pattern := by
  rw [Row.covers, eq_iff_fields_eq, fieldO_and, fieldB_and, fieldA_and, fieldO_pack, fieldB_pack, fieldA_pack]

/-- The opcode of an instruction meets its row's test of that field (R77, R79). -/
theorem opcode_and_row_mask (i : Instr) : i.opcode.1 &&& fieldO i.row.mask = fieldO i.row.pattern := by
  cases i <;> simp only [Instr.opcode, Instr.row]
  case unsupBasic k _ _ => revert k; decide
  all_goals decide

/-- So does the middle field, which the row of a special instruction tests and that of a basic one leaves open (R78,
R80). -/
theorem middle_and_row_mask (i : Instr) : i.middle &&& fieldB i.row.mask = fieldB i.row.pattern := by
  cases i <;> simp only [Instr.middle, Instr.opcode, Instr.row]
  case jsr | unsupSpecial00 => decide
  case unsupSpecial02 k _ | unsupSpecial04 k _ | unsupSpecial08 k _ | unsupSpecial10 k _ => revert k; decide
  all_goals simp [fieldB]

/-- No row tests the `a` field (R71, R72). -/
theorem and_row_mask_fieldA (i : Instr) (a : BitVec 6) : a &&& fieldA i.row.mask = fieldA i.row.pattern := by
  cases i <;> simp [Instr.row, fieldA]

/-- The first word of an instruction lies in its row. -/
theorem row_covers_firstWord (i : Instr) : i.row.covers i.firstWord :=
  (covers_pack _ _ _ _).mpr ⟨opcode_and_row_mask i, middle_and_row_mask i, and_row_mask_fieldA i _⟩

/-- A first word lies in the row of the instruction it decodes to (R73). -/
theorem row_decodeWords_covers (w x1 x2 : Word) : (decodeWords w x1 x2).row.covers w := by
  have h := row_covers_firstWord (decodeWords w x1 x2)
  rwa [firstWord_decodeWords] at h

/-! ### The rows share no word -/

/-- An instruction of each row, in the order of the constructors. -/
def rowSamples : List Instr :=
  [.set .sp .sp, .add .sp .sp, .sub .sp .sp, .mul .sp .sp, .mli .sp .sp, .div .sp .sp, .dvi .sp .sp, .mod .sp .sp,
    .mdi .sp .sp, .and .sp .sp, .bor .sp .sp, .xor .sp .sp, .shr .sp .sp, .asr .sp .sp, .shl .sp .sp, .ifb .sp .sp,
    .ifc .sp .sp, .ife .sp .sp, .ifn .sp .sp, .ifg .sp .sp, .ifa .sp .sp, .ifl .sp .sp, .ifu .sp .sp, .jsr .sp,
    .unsupBasic 0 .sp .sp, .unsupSpecial00 .sp, .unsupSpecial02 0 .sp, .unsupSpecial04 0 .sp,
    .unsupSpecial08 0 .sp, .unsupSpecial10 0 .sp]

theorem row_mem_samples (i : Instr) : i.row ∈ rowSamples.map Instr.row := by
  cases i <;> simp [rowSamples, Instr.row]

/-- Some bit that both rows test has another value in each. -/
def Row.Apart (r r' : Row) : Prop := r.pattern &&& r'.mask ≠ r'.pattern &&& r.mask

theorem Row.Apart.symm {r r' : Row} (h : r.Apart r') : r'.Apart r := fun he => h he.symm

/-- Rows that cover one word agree on the bits both test. -/
theorem Row.Apart.not_covers {r r' : Row} {w : Word} (h : r.Apart r') (hr : r.covers w) : ¬ r'.covers w := by
  intro hr'
  apply h
  rw [← hr, ← hr', BitVec.and_assoc, BitVec.and_comm r.mask, BitVec.and_assoc]

/-- The opcode table has no two rows with a word in common (R81). -/
theorem rowSamples_pairwise_apart : (rowSamples.map Instr.row).Pairwise Row.Apart := by
  unfold Row.Apart
  decide

/-- A word lies in one row at most (R81). -/
theorem row_eq_of_covers {i j : Instr} {w : Word} (hi : i.row.covers w) (hj : j.row.covers w) : j.row = i.row := by
  by_contra hne
  have : Std.Symm Row.Apart := ⟨fun _ _ => Row.Apart.symm⟩
  have hapart := rowSamples_pairwise_apart.forall (row_mem_samples i) (row_mem_samples j) (Ne.symm hne)
  exact hapart.not_covers hi hj

end Sys2Proof
end

section
/-! SUPPORT. What the first word alone tells: the length (R75) and whether the word has a meaning (R79, R80). -/

namespace Sys2Proof

/-! ### Fields as numbers -/

theorem toNat_fieldO (w : Word) : (fieldO w).toNat = w.toNat % 32 := by
  simp [fieldO]

theorem toNat_fieldB (w : Word) : (fieldB w).toNat = w.toNat / 32 % 32 := by
  simp [fieldB, Nat.shiftRight_eq_div_pow]

theorem toNat_fieldA (w : Word) : (fieldA w).toNat = w.toNat / 1024 := by
  have hw := w.isLt
  simp only [fieldA, BitVec.extractLsb'_toNat, Nat.shiftRight_eq_div_pow]
  omega

theorem fieldO_eq_zero_iff (w : Word) : fieldO w = 0 ↔ w.toNat % 32 = 0 := by
  rw [← toNat_fieldO, ← BitVec.toNat_inj]
  rfl

end Sys2Proof

namespace Sys2Proof.Machine

/-! ### The length -/

/-- The decoder's test for an extra word is the table of R75. -/
theorem nw_toNat (m : BitVec 6) : nw m.toNat = if needsExtra m then 1 else 0 := by
  revert m
  decide

/-- The first word says how long the instruction is (R75). -/
theorem length_decodeWords (w x1 x2 : Word) : (decodeWords w x1 x2).length = 1 + extraCount w := by
  rw [Instr.length, encode_decodeWords, List.length_cons, List.length_take_of_le (extraCount_le w), Nat.add_comm]

/-- The number of extra words from the numeric fields of the first word (R75). -/
theorem extraCount_eq (w : Word) : extraCount w =
    (if w.toNat % 32 = 0 then 0 else nw (w.toNat / 32 % 32)) + nw (w.toNat / 1024) := by
  have hb : nw (w.toNat / 32 % 32) = if needsExtra ((fieldB w).setWidth 6) then 1 else 0 := by
    rw [← nw_toNat, BitVec.toNat_setWidth_of_le (by omega), toNat_fieldB]
  simp only [extraCount, hb, ← toNat_fieldA, nw_toNat, ← fieldO_eq_zero_iff]
  by_cases ho : fieldO w = 0
  · simp only [ho, ne_eq, not_true_eq_false, false_and, if_false, if_true]
  · simp only [ho, ne_eq, not_false_eq_true, true_and, if_false]

/-! ### Words with no semantics -/

/-- A basic opcode is without semantics from 0x18 on (R79). -/
theorem isUnsupported_basicOf {o : BitVec 5} (ho : o ≠ 0) (b a : Mode) :
    isUnsupported (basicOf o b a) = true ↔ 0x18 ≤ o.toNat := by
  have hx : isUnsupported (basicOf o b a) = isUnsupported (basicOf o .sp .sp) := by
    simp only [basicOf]
    split <;> rfl
  rw [hx]
  clear hx
  revert o
  decide

/-- Of the special opcodes `JSR`'s alone has semantics (R78, R80). -/
theorem isUnsupported_specialOf (s : BitVec 5) (a : Mode) :
    isUnsupported (specialOf s a) = true ↔ s.toNat ≠ 1 := by
  have hx : isUnsupported (specialOf s a) = isUnsupported (specialOf s .sp) := by
    simp only [specialOf]
    split_ifs <;> rfl
  rw [hx]
  clear hx
  revert s
  decide

/-- The first word says whether it has semantics (R79, R80). -/
theorem isUnsupported_decodeWords (w x1 x2 : Word) : isUnsupported (decodeWords w x1 x2) = true ↔
    0x18 ≤ w.toNat % 32 ∨ (w.toNat % 32 = 0 ∧ w.toNat / 32 % 32 ≠ 1) := by
  rw [← fieldO_eq_zero_iff, ← toNat_fieldO, ← toNat_fieldB]
  unfold decodeWords
  by_cases ho : fieldO w = 0
  · simp [ho, isUnsupported_specialOf]
  · rw [if_neg ho, isUnsupported_basicOf ho]
    exact (or_iff_left fun h => ho h.1).symm

end Sys2Proof.Machine
end

section
/-! SUPPORT. The statements of spec/30_encoding.md and of its unsupported words (R211), settled. -/

namespace Sys2Proof.Machine

/-- Settles O1: `i` is decoded from its first word and its extra words, so its encoding is the words consumed. -/
theorem decodeOfEncodeIsIdentity : Obligations.DecodeOfEncodeIsIdentity := by
  intro i rest hw
  have hlen : (i.bExtra ++ i.aMode.extra).length ≤ 2 := Nat.le_of_succ_le_succ (length_le_three i)
  obtain ⟨x1, x2, hx⟩ := exists_prefix_pair hlen
  have hi : decodeWords i.firstWord x1 x2 = i := decodeWords_firstWord hw hx
  have henc : encode i = i.firstWord :: [x1, x2].take (extraCount i.firstWord) := by
    rw [← encode_decodeWords, hi]
  rw [encodeBytes, henc, decode_bytesOf_consumed, hi]

/-- Settles O2, by the first word and the extra words of the decoded instruction. -/
theorem encodeOfDecodeGivesTheConsumedWords : Obligations.EncodeOfDecodeGivesTheConsumedWords :=
  fun w x1 x2 => ⟨wellFormed_decodeWords w x1 x2, encode_decodeWords w x1 x2⟩

/-- Settles O4: the first word comes back from the decoded instruction, and two rows that share a word are one. -/
theorem everyFirstWordLiesInExactlyOneRow : Obligations.EveryFirstWordLiesInExactlyOneRow :=
  fun w x1 x2 => ⟨row_decodeWords_covers w x1 x2, fun _ hj => row_eq_of_covers (row_decodeWords_covers w x1 x2) hj⟩

/-- Settles O5, by the number of extra words that the fields of the first word ask for. -/
theorem lengthIsToldFromTheFirstWord : Obligations.LengthIsToldFromTheFirstWord := by
  intro w x1 x2
  refine ⟨?_, length_le_three _⟩
  rw [length_decodeWords, extraCount_eq]
  split_ifs <;> omega

/-- Settles O47: of all that may stand after a dispatch, only an executed unsupported word has this status. -/
theorem unsupportedWordsRaiseTheFatalCondition : Obligations.UnsupportedWordsRaiseTheFatalCondition := by
  refine ⟨isUnsupported_decodeWords, fun i s hu hs => exec_unsupported hs hu, fun i s t p h hst ht => ?_⟩
  cases exec_dispatched h with
  | unsupported hs hu => exact ⟨hu, hs⟩
  | overflowed _ _ _ _ he => simp [he] at ht
  | skipped _ he | tested _ _ _ he | wrote _ _ _ _ _ _ _ he | called _ _ _ _ _ he => simp [he, hst] at ht

/-- Settles O3, by the fields of a packed word and the packing of a word's fields. -/
theorem packAndUnpackAreInverse : Obligations.PackAndUnpackAreInverse :=
  ⟨fun o b a => ⟨fieldO_pack o b a, fieldB_pack o b a, fieldA_pack o b a⟩, pack_fields⟩

/-- Settles O6: nine closed words, decoded by evaluation. -/
theorem sampleWordsDecodeAsTheSpecSays : Obligations.SampleWordsDecodeAsTheSpecSays := by
  unfold Obligations.SampleWordsDecodeAsTheSpecSays
  decide

end Sys2Proof.Machine
end

section
/-! SUPPORT. The operand resolver by mode code, and the statements of spec/40_operand_resolver.md, settled. -/

namespace Sys2Proof.Machine

/-! ### The resolver on mode codes -/

/-- Resolving a mode's own code, with the extra word the mode carries, is resolving the mode (R74, R101 to R113). -/
theorem resolve_decodeMode_code (h : Hint) (m : Mode) (x : Word) (s : State) (hx : m.extra = [] ∨ m.extra = [x]) :
    resolve h (decodeMode m.code x) s = resolve h m s := by
  rw [decodeMode_code m x hx]

/-- The bias of the codes cancels: an inline literal is the code's low five bits (R113). -/
theorem inlineValue_eq (k : BitVec 5) : inlineValue k = BitVec.ofNat 16 k.toNat := by
  have hbias : ((0x20 + k.toNat : Nat) - (Params.literalBias : Nat) : Int) = k.toNat := by
    simp [Params.literalBias]
  rw [inlineValue, hbias, u16, BitVec.ofInt_natCast]

/-- A code from 0x20 on resolves to the literal it holds and moves nothing (R113). -/
theorem resolve_inline_code (h : Hint) (x : Word) (s : State) {n : Nat} (hn : n ≤ 31) :
    resolve h (decodeMode (BitVec.ofNat 6 (0x20 + n)) x) s = (.lit (BitVec.ofNat 16 n), s) := by
  have hk : (BitVec.ofNat 5 n).toNat = n := Nat.mod_eq_of_lt (by omega)
  have hres := resolve_decodeMode_code h (.inline (BitVec.ofNat 5 n)) x s (.inl rfl)
  simpa only [Mode.code, resolve, inlineValue_eq, hk] using hres

/-- Mode 0x18 is the only code of the stack mode (R104, R105). -/
theorem decodeMode_ne_stack {m : BitVec 6} (hm : m ≠ 0x18) (x : Word) : decodeMode m x ≠ .stack := fun he =>
  hm (by rw [← code_decodeMode m x, he]; rfl)

theorem spMove_of_ne_stack {m : Mode} (hm : m ≠ .stack) (h : Hint) : spMove h m = 0 := by
  cases m with
  | stack => exact absurd rfl hm
  | reg _ | ind _ | idx _ _ | peek | pick _ | sp | pc | ex | mem _ | lit _ | inline _ => cases h <;> rfl

/-- Only the stack mode looks at the hint (R100). -/
theorem resolve_hint_irrel {m : Mode} (hm : m ≠ .stack) (h h' : Hint) (s : State) :
    resolve h' m s = resolve h m s := by
  cases m with
  | stack => exact absurd rfl hm
  | reg _ | ind _ | idx _ _ | peek | pick _ | sp | pc | ex | mem _ | lit _ | inline _ => rfl

/-- A source `POP` gives back what a destination `PUSH` took from `sp` (R104, R105, R115). -/
theorem resolveBoth_stack_stack_st (s : State) : (resolveBoth .stack .stack s).st = s := by
  have hst : (resolveBoth .stack .stack s).st = s.setSp (s.sp - 1 + 1) := rfl
  rw [hst, BitVec.sub_add_cancel]
  rfl

/-! ### The statements -/

/-- Settles O21: the codes are those of the three register modes. -/
theorem registerModesResolveByTheirCode : Obligations.RegisterModesResolveByTheirCode := fun h s r =>
  ⟨resolve_decodeMode_code h (.reg r) _ s (.inl rfl), resolve_decodeMode_code h (.ind r) _ s (.inl rfl),
    resolve_decodeMode_code h (.idx r _) _ s (.inr rfl)⟩

/-- Settles O22: the codes are those of the stack mode, under each hint, of peek and of pick. -/
theorem stackModesResolveByTheirCode : Obligations.StackModesResolveByTheirCode := fun s h =>
  ⟨resolve_decodeMode_code .a .stack _ s (.inl rfl), resolve_decodeMode_code .b .stack _ s (.inl rfl),
    resolve_decodeMode_code h .peek _ s (.inl rfl), resolve_decodeMode_code h (.pick _) _ s (.inr rfl)⟩

/-- Settles O23: one code for each special mode, and the 32 codes of the inline literals by `inlineValue_eq`. -/
theorem specialAndLiteralModesResolveByTheirCode : Obligations.SpecialAndLiteralModesResolveByTheirCode := fun s h =>
  ⟨resolve_decodeMode_code h .sp _ s (.inl rfl), resolve_decodeMode_code h .pc _ s (.inl rfl),
    resolve_decodeMode_code h .ex _ s (.inl rfl), resolve_decodeMode_code h (.mem _) _ s (.inr rfl),
    resolve_decodeMode_code h (.lit _) _ s (.inr rfl), fun _ hn => resolve_inline_code h _ s hn⟩

/-- Settles O24: `resolveBoth` is that order, and the pop undoes the push's move of `sp`. -/
theorem destinationIsResolvedBeforeSource : Obligations.DestinationIsResolvedBeforeSource :=
  ⟨fun _ _ _ => ⟨rfl, rfl, rfl⟩, fun s => ⟨rfl, rfl, rfl, rfl, resolveBoth_stack_stack_st s⟩⟩

/-- Settles O26: one location per kind of operand; what is read after a write is told by `setX_x` and
`memWrite_memRead`. -/
theorem operandsReadAndWriteTheirLocation : Obligations.OperandsReadAndWriteTheirLocation := fun s v =>
  ⟨fun r => ⟨rfl, rfl, fun q => setX_x s r q v⟩, ⟨rfl, rfl⟩, ⟨rfl, rfl⟩, ⟨rfl, rfl⟩,
    fun p => ⟨rfl, rfl, fun q => memWrite_memRead s p q v⟩, fun _ => ⟨rfl, rfl⟩⟩

/-- Settles O57: the state is told by `resolve_snd`, the operand reads registers and `sp` alone, and mode 0x18 is the
only one that moves `sp` or looks at the hint. -/
theorem resolutionTouchesOnlyPcAndSp : Obligations.ResolutionTouchesOnlyPcAndSp := by
  intro m n h s
  refine ⟨?frame, fun hm => ?pc, fun hm => ⟨?sp, fun h' => ?hint⟩, fun e k c d l => ?unread⟩
  case frame => rw [resolve_pc, resolve_sp, ← resolve_snd]
  case pc => simp [extra_decodeMode, hm]
  case sp => simp [spMove_of_ne_stack (decodeMode_ne_stack hm n)]
  case hint => exact resolve_hint_irrel (decodeMode_ne_stack hm n) h h' s
  case unread => exact Prod.ext (resolve_fst_congr (fun _ _ => rfl) rfl) (by simp only [resolve_snd])

end Sys2Proof.Machine
end

section
/-! SUPPORT. The step by its two tests, the skip, and the frames of the IF family and of `JSR`. -/

namespace Sys2Proof.Machine

/-! ### The two tests of a step -/

/-- A halted core has no step (R218). -/
theorem step_of_halted {s : State} {c : HaltCause} (h : s.status = .halted c) : step s = .fault (.coreHalted c) := by
  simp [step, h]

theorem budgetReached_eq_false_iff (s : State) :
    budgetReached s = false ↔ ∀ n, s.limit = some n → s.icount < n := by
  simp [← Bool.not_eq_true, budgetReached_iff]

/-- The bytes of the three words at `pc` decode to the instruction fetched there (R132, R133). -/
theorem decode_memBytes_pc (s : State) : ∃ rest, decode (memBytes s.mem 3 s.pc) = .ok (fetchInstr s, rest) := by
  have hbytes : memBytes s.mem 3 s.pc =
      bytesOf [s.memRead s.pc, s.memRead (s.pc + 1), s.memRead (s.pc + 2)] ++ [] := by
    rw [show s.pc + 2 = s.pc + 1 + 1 by rw [BitVec.add_assoc]; rfl]
    rfl
  exact ⟨_, hbytes ▸ decode_bytesOf_three _ _ _ _⟩

/-- Settles O11: the run status is the first thing a step tests. -/
theorem haltedCoreMakesNoStep : Obligations.HaltedCoreMakesNoStep := fun _ _ => step_of_halted

/-- Settles O10: the budget's test comes before the dispatch, and the halted state it leaves has no step. -/
theorem budgetHaltsBeforeTheFetch : Obligations.BudgetHaltsBeforeTheFetch := by
  intro s hst
  refine ⟨fun n hl hn => ⟨?_, fun u hu => ?_⟩, fun hl => ?_⟩
  · exact step_eq_halt hst ((budgetReached_iff s).mpr ⟨n, hl, hn⟩)
  · rw [step_of_halted rfl] at hu
    cases hu
  · exact step_eq_exec hst ((budgetReached_eq_false_iff s).mpr hl)

/-- Settles O7: what the bytes decode to is the instruction fetched. -/
theorem stepRunsTheDecodedInstruction : Obligations.StepRunsTheDecodedInstruction := by
  intro s i rest hst hb h
  obtain ⟨rest', hfetch⟩ := decode_memBytes_pc s
  obtain rfl : fetchInstr s = i := congrArg Prod.fst (Except.ok.inj (hfetch.symm.trans h))
  exact step_eq_exec hst hb

/-! ### The skip -/

/-- Settles O39: `exec_skipped`, for every instruction. -/
theorem skippedInstructionIsPassedOverWhole : Obligations.SkippedInstructionIsPassedOverWhole :=
  fun i _ => exec_skipped i

/-- The instructions with a predicate are the IF family (R180). -/
theorem isSome_ifPred (i : Instr) : (ifPred i).isSome = isIf i := by cases i <;> rfl

/-- After resolution a conditional leaves in `skip` whether its predicate failed (R180). -/
theorem condBody_eq_setSkip {p : Word → Word → Bool} {b a : Operand} {s : State} (hs : s.skip = false) :
    condBody p b a s = s.setSkip (!p (readOp b s) (readOp a s)) := by
  rw [condBody_eq]
  cases p (readOp b s) (readOp a s) with
  | true => rw [Bool.not_true, ← hs]; rfl
  | false => rfl

/-- An executed conditional is passed over, and `skip` tells whether its predicate failed (R180 to R188). -/
theorem exec_conditional {i : Instr} {s : State} {p : Word → Word → Bool} (hp : ifPred i = some p)
    (hs : s.skip = false) : ∃ b, i.bMode = some b ∧ exec i s =
      .next ((passed i s).setSkip (!p (operandsOf b i.aMode s).bv (operandsOf b i.aMode s).av)) := by
  have hif : isIf i = true := by rw [← isSome_ifPred, hp]; rfl
  cases execShape i with
  | cond b q hb _ _ hq he =>
    obtain rfl := Option.some.inj (hq.symm.trans hp)
    refine ⟨b, hb, ?_⟩
    rw [he s hs, condBody_eq_setSkip (s := passed i s) hs, Resolved.bv, Resolved.av, operandsOf_st hb]
  | write _ _ _ hw | writeEx _ _ _ hw => simp [isIf_eq_false_of_writesB hw] at hif
  | jsr a hi => simp [hi, isIf] at hif
  | unsupported hu => simp [isUnsupported_eq_false_of_isIf hif] at hu

/-- Only a conditional leaves `skip` set (R137). -/
theorem Dispatched.skip_eq_false {i : Instr} {s t : State} (h : Dispatched i s t) (hi : isIf i = false) :
    t.skip = false := by
  cases h with
  | tested _ _ hif => simp [hi] at hif
  | skipped _ ht => simp [ht]
  | wrote _ _ _ hs _ _ _ ht | called _ _ hs _ _ ht | overflowed _ hs _ _ ht | unsupported hs _ ht => simp [ht, hs]

/-- Settles O40: a skipped instruction leaves `skip` clear, and so does an executed one that is no conditional; a
conditional leaves it as its predicate says. -/
theorem skipIsSetOnlyByAFalseConditional : Obligations.SkipIsSetOnlyByAFalseConditional := by
  intro i s t h
  cases hs : s.skip with
  | true =>
    obtain rfl := Host.Outcome.next.inj ((exec_skipped i hs).symm.trans h)
    exact ⟨by simp, fun _ => rfl⟩
  | false =>
    refine ⟨?_, by simp⟩
    cases hp : ifPred i with
    | none =>
      have hif : isIf i = false := by rw [← isSome_ifPred, hp]; rfl
      simp [(exec_dispatched h).skip_eq_false hif]
    | some p =>
      obtain ⟨b, hb, he⟩ := exec_conditional hp hs
      obtain rfl := Host.Outcome.next.inj (he.symm.trans h)
      simp [hb]

/-! ### Frames -/

/-- A conditional, skipped or executed, leaves the state after resolution but for `skip` (R180). -/
theorem Dispatched.eq_setSkip_of_isIf {i : Instr} {s t : State} (h : Dispatched i s t) (hi : isIf i = true) :
    ∃ k, t = (passed i s).setSkip k := by
  cases h with
  | skipped _ ht => exact ⟨false, ht⟩
  | tested k _ _ ht => exact ⟨k, ht⟩
  | wrote _ _ _ _ _ hw => simp [isIf_eq_false_of_writesB hw] at hi
  | called a _ _ hj => simp [hj, isIf] at hi
  | overflowed a _ hj => simp [hj, isIf] at hi
  | unsupported _ hu => simp [isUnsupported_eq_false_of_isIf hi] at hu

/-- Settles O50: the state after resolution holds the memory the dispatch found. -/
theorem conditionalsWriteNothingButSkip : Obligations.ConditionalsWriteNothingButSkip := by
  intro i s t hi h
  obtain ⟨k, rfl⟩ := (exec_dispatched h).eq_setSkip_of_isIf hi
  exact ⟨rfl, fun _ => rfl⟩

/-- The word an executed `JSR` stores to is the one below the `sp` that resolution left (R201). -/
theorem storeAddr_jsr {a : Mode} {s : State} (hs : s.skip = false) (hsp : (passed (.jsr a) s).sp ≠ 0) :
    storeAddr (.jsr a) s = some ((passed (.jsr a) s).sp - 1) := by
  have hst : (resolve .a a s.fetched).2 = passed (.jsr a) s := resolve_a_snd (i := .jsr a) rfl s
  simp only [storeAddr, hs, hst, if_neg hsp, Bool.false_eq_true, if_false]

/-- Settles O51: a `JSR` is passed over, overflows, or stores the one word of `storeAddr_jsr`. -/
theorem jsrKeepsEverythingElse : Obligations.JsrKeepsEverythingElse := by
  intro a s t h
  cases exec_dispatched h with
  | skipped _ ht => simp [ht]
  | overflowed _ hs _ _ ht => simp [ht, hs]
  | called _ v hs hi hsp ht =>
    have haddr := storeAddr_jsr hs hsp
    subst ht
    refine ⟨fun _ => rfl, rfl, hs, rfl, rfl, .inl rfl, .inr haddr, fun k hk => ?_⟩
    obtain ⟨hhigh, hlow⟩ := hk _ haddr
    exact readByte_write_of_ne _ _ _ k hhigh hlow
  | wrote _ _ _ _ _ hw => simp [writesB] at hw
  | tested _ _ hi => simp [isIf] at hi
  | unsupported _ hu => simp [isUnsupported] at hu

end Sys2Proof.Machine
end

section
/-! SUPPORT. Runs with a LIMIT. A run is told by two equations, at the end of its budget and before it, and a property
of the states of a run is proved by `budget_induction` on the dispatches left. -/

namespace Sys2Proof.Machine

/-! ### The two ways a dispatch leaves the status -/

/-- A dispatch of a running core leaves it running or raises a fatal condition; it is never the budget's halt (R210). -/
theorem Dispatched.running_or_fatal {i : Instr} {s t : State} (h : Dispatched i s t) (hst : s.status = .running) :
    t.status = .running ∨ fatal t = true := by
  obtain hr | ⟨hu, -⟩ | ⟨ho, -⟩ := h.status_cases
  · exact .inl (hr.trans hst)
  · exact .inr (by simp [fatal, hu])
  · exact .inr (by simp [fatal, ho])

theorem exists_halted_of_fatal {s : State} (h : fatal s = true) :
    ∃ c, s.status = .halted c ∧ c ≠ .budgetExhausted := by
  unfold fatal at h
  split at h <;> simp_all

/-- A dispatch reads no LIMIT (R131). -/
theorem exec_withLimit {i : Instr} {s t : State} (h : exec i s = .next t) (l : Option Nat) :
    exec i (s.withLimit l) = .next (t.withLimit l) := by
  obtain ⟨raised, hstatus, hexec⟩ := instructionsNeverReadTheBookkeeping i s t h
  have hstep := hexec s.icount l s.status
  rw [← hstatus, ← (exec_dispatched h).icount_eq] at hstep
  exact hstep

/-! ### The run, dispatch by dispatch -/

/-- A run makes no step from a halted state (R141). -/
theorem runSteps_of_halted {s : State} {c : HaltCause} (h : s.status = .halted c) (k : Nat) : runSteps k s = s := by
  cases k with
  | zero => rfl
  | succ k => rw [runSteps, step_of_halted h]

/-- With LIMIT dispatches already made, the run is the budget's halt (R213). -/
theorem hostRun_exhausted {s : State} (hst : s.status = .running) :
    hostRun s.icount s = (s.withLimit (some s.icount)).setStatus (.halted .budgetExhausted) := by
  have hb : budgetReached (s.withLimit (some s.icount)) = true := by simp [budgetReached]
  have hstep := step_eq_halt (s := s.withLimit (some s.icount)) hst hb
  rw [hostRun, Nat.sub_self, Nat.zero_add, runSteps, hstep]
  rfl

/-- Below LIMIT, a run is one dispatch and the run from there, which makes no step where the dispatch halted. -/
theorem hostRun_dispatch {s t : State} {n : Nat} (hst : s.status = .running) (hlt : s.icount < n)
    (h : exec (fetchInstr s) s = .next t) : hostRun n s = hostRun n t := by
  have hb : budgetReached (s.withLimit (some n)) = false :=
    (budgetReached_eq_false_iff _).mpr fun _ hl => Option.some.inj hl ▸ hlt
  have hstep : step (s.withLimit (some n)) = .next (t.withLimit (some n)) :=
    (step_eq_exec (s := s.withLimit (some n)) hst hb).trans (exec_withLimit h _)
  have hcount : n - s.icount = n - t.icount + 1 := by
    rw [(exec_dispatched h).icount_eq]
    omega
  rw [hostRun, hcount, runSteps, hstep]
  rfl

/-- A run from a halted state leaves it as it is, with the new LIMIT. -/
theorem hostRun_of_halted {s : State} {c : HaltCause} (h : s.status = .halted c) (n : Nat) :
    hostRun n s = s.withLimit (some n) :=
  runSteps_of_halted (s := s.withLimit (some n)) h _

/-- Induction on the dispatches a running core has left up to LIMIT `n`: a property holds of each such state when it
holds at the end of the budget, and holds before a dispatch whenever it holds after it or the dispatch halts the core
by a fatal condition. -/
theorem budget_induction {n : Nat} {P : State → Prop}
    (budget : ∀ s, s.status = .running → s.icount = n → P s)
    (dispatch : ∀ s t, s.status = .running → s.icount < n → exec (fetchInstr s) s = .next t →
      t.icount ≤ n → P t ∨ fatal t = true → P s) :
    ∀ s : State, s.status = .running → s.icount ≤ n → P s := by
  intro s hst hle
  induction hk : n - s.icount generalizing s with
  | zero => exact budget s hst (by omega)
  | succ k ih =>
    obtain ⟨t, ht⟩ := exists_exec_eq_next (fetchInstr s) s
    have hd := exec_dispatched ht
    have hcount := hd.icount_eq
    refine dispatch s t hst (by omega) ht (by omega) ?_
    exact (hd.running_or_fatal hst).imp_left fun hr => ih t hr (by omega) (by omega)

/-! ### The statements -/

/-- What the end of a run with LIMIT `n` is: a fatal condition within the budget, or the budget's halt exactly at its
end. -/
def EndsWithin (n : Nat) (t : State) : Prop :=
  (fatal t = true ∧ t.icount ≤ n) ∨ (t.status = .halted .budgetExhausted ∧ t.icount = n)

theorem hostRun_endsWithin (n : Nat) :
    ∀ s : State, s.status = .running → s.icount ≤ n → EndsWithin n (hostRun n s) := by
  refine budget_induction (fun s hst hn => ?_) fun s t hst hlt ht hle hrest => ?_
  · subst hn
    rw [hostRun_exhausted hst]
    exact .inr ⟨rfl, rfl⟩
  · rw [hostRun_dispatch hst hlt ht]
    obtain hend | hfatal := hrest
    · exact hend
    · obtain ⟨c, hc, -⟩ := exists_halted_of_fatal hfatal
      rw [hostRun_of_halted hc]
      exact .inl ⟨hfatal, hle⟩

/-- Settles O17: the end is one of the two of `EndsWithin`, and neither is running. -/
theorem boundedRunHaltsWithinItsLimit : Obligations.BoundedRunHaltsWithinItsLimit := by
  intro s n hst hle
  obtain ⟨hfatal, hcount⟩ | ⟨hbudget, hcount⟩ := hostRun_endsWithin n s hst hle
  · obtain ⟨c, hc, -⟩ := exists_halted_of_fatal hfatal
    exact ⟨by simp [hc], hcount, by simp [hfatal]⟩
  · exact ⟨by simp [hbudget], hcount.le, fun _ => ⟨hbudget, hcount⟩⟩

/-- Where the shorter budget ends, its end state set running again is the state the longer run has there; before that,
both runs make the same dispatch. -/
theorem hostRun_retraces {n m : Nat} (hnm : n ≤ m) : ∀ s : State, s.status = .running → s.icount ≤ n →
    (hostRun n s).status = .halted .budgetExhausted →
    hostRun m s = hostRun m { hostRun n s with status := .running } := by
  refine budget_induction (fun s hst hn _ => ?_) fun s t hst hlt ht _ hrest => ?_
  · subst hn
    have hagain : { hostRun s.icount s with status := .running } = s.withLimit (some s.icount) := by
      rw [hostRun_exhausted hst, ← hst]
      rfl
    rw [hagain]
    rfl
  · rw [hostRun_dispatch hst hlt ht, hostRun_dispatch hst (hlt.trans_le hnm) ht]
    obtain hretrace | hfatal := hrest
    · exact hretrace
    · intro hbudget
      obtain ⟨c, hc, hne⟩ := exists_halted_of_fatal hfatal
      rw [hostRun_of_halted hc] at hbudget
      exact absurd (Status.halted.inj (hc.symm.trans hbudget)) hne

/-- Settles O18: the longer run retraces the shorter one. -/
theorem largerLimitRetracesTheShorterRun : Obligations.LargerLimitRetracesTheShorterRun :=
  fun s _ _ hst hle hnm => hostRun_retraces hnm s hst hle

end Sys2Proof.Machine
end

section
/-! SUPPORT. The pseudocode of R130 and `step` compared part by part: `resolveCode` with `resolve` on the decoded mode,
the opcode tests and `execTable` with `exec`, the numeric fields with those of the decoder. -/

namespace Sys2Proof.Machine

/-! ### The resolver on numeric mode codes -/

/-- On the code of a mode whose extra word, if it has one, stands at `pc`, `resolveCode` is `resolve` (R101 to R114). -/
theorem resolveCode_code {m : Mode} {s : State} (h : Hint) (hx : m.extra = [] ∨ m.extra = [s.memRead s.pc]) :
    resolveCode m.code.toNat h s = resolve h m s := by
  cases m with
  | reg r | ind r => cases r <;> rfl
  | idx r n =>
    obtain rfl : n = s.memRead s.pc := by simpa [Mode.extra] using hx
    cases r <;> rfl
  | pick n | mem n | lit n =>
    obtain rfl : n = s.memRead s.pc := by simpa [Mode.extra] using hx
    rfl
  | stack => cases h <;> rfl
  | peek | sp | pc | ex => rfl
  | inline k =>
    have hcode : (Mode.inline k).code.toNat = 0x20 + k.toNat := Nat.mod_eq_of_lt (by omega)
    rw [hcode, resolveCode, if_neg (by omega), if_neg (by omega), if_neg (by omega)]
    · rfl
    all_goals omega

/-- On any mode code `resolveCode` is `resolve` on the mode decoded with the word at `pc`. -/
theorem resolveCode_toNat (m : BitVec 6) (h : Hint) (s : State) :
    resolveCode m.toNat h s = resolve h (decodeMode m (s.memRead s.pc)) s := by
  have hx : (decodeMode m (s.memRead s.pc)).extra = [] ∨
      (decodeMode m (s.memRead s.pc)).extra = [s.memRead s.pc] := by
    rw [extra_decodeMode]
    cases needsExtra m
    · exact .inl rfl
    · exact .inr rfl
  rw [← resolveCode_code h hx, code_decodeMode]

/-- The extra word of `a` is the word at `pc` once `b` has been resolved (R74, R114). -/
theorem memRead_pc_after_b (h : Hint) (bm : BitVec 6) (x : Word) (s : State) :
    (resolve h (decodeMode bm x) s).2.memRead (resolve h (decodeMode bm x) s).2.pc =
      if needsExtra bm then s.memRead (s.pc + 1) else s.memRead s.pc := by
  rw [resolve_memRead, resolve_pc, extra_decodeMode]
  cases needsExtra bm <;> simp

/-- The operands of a basic instruction, each by its code from the word at `pc`, are those of the modes decoded with
the two words after the first (R74, R114, R115). -/
theorem resolveBoth_decodeMode (bm am : BitVec 6) (s : State) :
    resolveBoth (decodeMode bm (s.memRead (s.pc + 1)))
        (decodeMode am (if needsExtra bm then s.memRead (s.pc + 2) else s.memRead (s.pc + 1))) s.fetched =
      (let rb := resolveCode bm.toNat .b s.fetched
       let ra := resolveCode am.toNat .a rb.2
       ⟨rb.1, ra.1, ra.2⟩) := by
  have hpc : s.pc + 2 = s.pc + 1 + 1 := by rw [BitVec.add_assoc]; rfl
  simp only [resolveCode_toNat, memRead_pc_after_b, fetched_memRead, fetched_pc, hpc]
  rfl

/-! ### The opcode tests -/

/-- What runs after the skip check in the basic format: the test of the opcode, then `Exec[o]` (R130, R135). -/
def specBody (iaddr : Word) (o : Nat) (b a : Operand) (s : State) : State :=
  if 0x18 ≤ o then raise (.unsupportedInstruction iaddr) s else execTable o b a s

/-- The same in the special format (R130, R134). -/
def specSpecialBody (iaddr : Word) (mid : Nat) (a : Operand) (s : State) : State :=
  if mid ≠ 0x01 then raise (.unsupportedInstruction iaddr) s else bodyJsr a s

/-- A basic instruction is dispatched with the body its opcode selects (R77, R79). -/
theorem exec_eq_dispatchBasic {i : Instr} {b : Mode} (hb : i.bMode = some b) (s : State) :
    exec i s = dispatchBasic (specBody s.pc i.opcode.1.toNat) b i.aMode s := by
  cases i <;> cases hb
  case unsupBasic k a =>
    have ho : (BitVec.ofNat 5 (0x18 + k.toNat)).toNat = 0x18 + k.toNat := Nat.mod_eq_of_lt (by omega)
    have hbody : specBody s.pc (0x18 + k.toNat) = bodyUnsupBasic s.pc := by
      funext b a u
      exact if_pos (by omega)
    simp only [Instr.opcode, ho, hbody]
    rfl
  all_goals rfl

/-- An opcode other than `JSR`'s raises in the special format (R80). -/
theorem specSpecialBody_of_ne {mid : Nat} (h : mid ≠ 1) (iaddr : Word) :
    specSpecialBody iaddr mid = bodyUnsupSpecial iaddr := by
  funext a u
  exact if_pos h

/-- A special instruction is dispatched with the body its opcode selects (R78, R80). -/
theorem exec_specialOf (o : BitVec 5) (a : Mode) (s : State) :
    exec (specialOf o a) s = dispatchSpecial (specSpecialBody s.pc o.toNat) a s := by
  by_cases ho : o.toNat = 1
  · have hi : specialOf o a = .jsr a := by simp [specialOf, ho]
    rw [hi, ho]
    rfl
  · rw [specSpecialBody_of_ne ho]
    simp only [specialOf, if_neg ho, apply_ite (exec · s)]
    split_ifs <;> rfl

theorem exec_basicOf {o : BitVec 5} (ho : o ≠ 0) (b a : Mode) (s : State) :
    exec (basicOf o b a) s = dispatchBasic (specBody s.pc o.toNat) b a s := by
  rw [exec_eq_dispatchBasic (bMode_basicOf o b a), opcode_basicOf ho, aMode_basicOf]

/-! ### The step -/

theorem dispatchBasic_eq_next (body : Operand → Operand → State → State) (b a : Mode) (s : State) :
    dispatchBasic body b a s = .next
      (let r := resolveBoth b a s.fetched
       if r.st.skip then r.st.setSkip false else body r.b r.a r.st) :=
  (apply_ite Host.Outcome.next _ _ _).symm

theorem dispatchSpecial_eq_next (body : Operand → State → State) (a : Mode) (s : State) :
    dispatchSpecial body a s = .next
      (let r := resolve .a a s.fetched
       if r.2.skip then r.2.setSkip false else body r.1 r.2) :=
  (apply_ite Host.Outcome.next _ _ _).symm

/-- The budget test of the pseudocode is `budgetReached` (R131). -/
theorem any_limit_eq_budgetReached (s : State) :
    s.limit.any (fun n => decide (s.icount ≥ n)) = budgetReached s := by
  unfold budgetReached
  cases s.limit <;> rfl

/-- A dispatch in the special format is the pseudocode's: one operand, then `JSR` or the condition (R134). -/
theorem exec_fetchInstr_special {s : State} (hb : budgetReached s = false) (ho : fieldO (s.memRead s.pc) = 0) :
    exec (fetchInstr s) s = .next (specStep s) := by
  have ha := resolveCode_toNat (fieldA (s.memRead s.pc)) .a s.fetched
  rw [fetched_memRead, fetched_pc] at ha
  have ho' : ¬ (s.memRead s.pc).toNat % 32 ≠ 0 := not_not_intro ((fieldO_eq_zero_iff _).mp ho)
  rw [fetchInstr, decodeWords, if_pos ho, exec_specialOf, dispatchSpecial_eq_next, ← ha]
  simp only [specStep, any_limit_eq_budgetReached, hb, Bool.false_eq_true, if_false, if_neg ho', toNat_fieldA,
    toNat_fieldB]
  rfl

/-- A dispatch in the basic format is the pseudocode's: `b`, then `a`, then the body the opcode selects (R135). -/
theorem exec_fetchInstr_basic {s : State} (hb : budgetReached s = false) (ho : fieldO (s.memRead s.pc) ≠ 0) :
    exec (fetchInstr s) s = .next (specStep s) := by
  have ho' : (s.memRead s.pc).toNat % 32 ≠ 0 := fun h => ho ((fieldO_eq_zero_iff _).mpr h)
  have hbm : ((fieldB (s.memRead s.pc)).setWidth 6).toNat = (s.memRead s.pc).toNat / 32 % 32 := by
    rw [BitVec.toNat_setWidth_of_le (by omega), toNat_fieldB]
  rw [fetchInstr, decodeWords, if_neg ho, exec_basicOf ho, dispatchBasic_eq_next, resolveBoth_decodeMode]
  simp only [specStep, any_limit_eq_budgetReached, hb, Bool.false_eq_true, if_false, if_pos ho', toNat_fieldO,
    toNat_fieldA, hbm]
  rfl

/-- Settles O8: the budget's halt is the pseudocode's first line, and a dispatch the rest of it. -/
theorem stepIsTheSpecPseudocode : Obligations.StepIsTheSpecPseudocode := by
  intro s hst
  cases hb : budgetReached s with
  | true =>
    have hspec : specStep s = raise .budgetExhausted s := if_pos ((any_limit_eq_budgetReached s).trans hb)
    rw [step_eq_halt hst hb, hspec]
  | false =>
    rw [step_eq_exec hst hb]
    by_cases ho : fieldO (s.memRead s.pc) = 0
    · exact exec_fetchInstr_special hb ho
    · exact exec_fetchInstr_basic hb ho

end Sys2Proof.Machine
end

section
/-! SUPPORT. Arithmetic with one word as both operands, and one register as both operands of an instruction. -/

namespace Sys2Proof.Machine

/-! ### One word as both operands -/

theorem aluMul_value (bv av : Word) : (aluMul bv av).value = bv * av := by
  simp [aluMul, u16, uint, BitVec.ofInt_mul]

theorem aluSub_self (v : Word) : aluSub v v = ⟨0, 0⟩ := by
  simp [aluSub, u16]

theorem uint_eq_zero_iff (v : Word) : uint v = 0 ↔ v = 0 := by
  simp [uint, ← BitVec.toNat_inj]

theorem s16_eq_zero_iff (v : Word) : s16 v = 0 ↔ v = 0 := BitVec.toInt_inj (y := 0)

/-- A word divided by itself is 1 with no fraction; 0 divided by 0 is 0 (R156). -/
theorem aluDiv_self (v : Word) : aluDiv v v = ⟨if v = 0 then 0 else 1, 0⟩ := by
  unfold aluDiv
  split_ifs with hv
  · rfl
  · have hu : uint v ≠ 0 := mt (uint_eq_zero_iff v).mp hv
    rw [Int.ediv_self hu, Int.mul_ediv_cancel_left _ hu]
    rfl

/-- The same of the signed quotient, under either rounding (R157). -/
theorem aluDvi_self (d : SDivRound) (v : Word) : aluDvi d v v = ⟨if v = 0 then 0 else 1, 0⟩ := by
  unfold aluDvi
  simp only [s16_eq_zero_iff]
  split_ifs with hv
  · rfl
  · have hs : s16 v ≠ 0 := mt (s16_eq_zero_iff v).mp hv
    cases d with
    | trunc => rw [roundDiv, roundDiv, Int.tdiv_self hs, Int.mul_tdiv_cancel_left _ hs]; rfl
    | floor => rw [roundDiv, roundDiv, Int.fdiv_self hs, Int.mul_fdiv_cancel_left _ hs]; rfl

/-- A word leaves no remainder by itself (R158). -/
theorem aluMod_self (v : Word) : aluMod v v = 0 := by
  unfold aluMod
  split_ifs with hv
  · rfl
  · rw [Int.ediv_self (mt (uint_eq_zero_iff v).mp hv), Int.mul_one, Int.sub_self]
    rfl

theorem aluXor_self (v : Word) : aluXor v v = 0 := BitVec.xor_self

/-! ### One register as both operands -/

section SameRegister
variable (f : Word → Word → Word) (g : Word → Word → AluResult) (r : Reg) {s : State} (hs : s.skip = false)
include hs

/-- A body that writes its destination alone reads the register twice before it writes it (R138). -/
theorem dispatchBasic_writeBody_reg_reg : ∃ t, dispatchBasic (writeBody f) (.reg r) (.reg r) s = .next t ∧
    t.x r = f (s.x r) (s.x r) ∧ t.ex = s.ex :=
  ⟨_, dispatchBasic_executed _ _ _ s hs, by simp [writeBody, resolveBoth, resolve, readOp, writeOp]⟩

/-- A body that writes `ex` first reads the register twice before either write (R138). -/
theorem dispatchBasic_writeExBody_reg_reg : ∃ t, dispatchBasic (writeExBody g) (.reg r) (.reg r) s = .next t ∧
    t.x r = (g (s.x r) (s.x r)).value ∧ t.ex = (g (s.x r) (s.x r)).ex :=
  ⟨_, dispatchBasic_executed _ _ _ s hs, by simp [writeExBody, resolveBoth, resolve, readOp, writeOp]⟩

end SameRegister

/-- Settles O33: each body reads the register twice, and each result is that of one word as both operands. -/
theorem sameRegisterTwiceIsReadBeforeItIsWritten : Obligations.SameRegisterTwiceIsReadBeforeItIsWritten := by
  intro r s hs
  obtain ⟨tadd, hadd, hadd_x, -⟩ := dispatchBasic_writeExBody_reg_reg aluAdd r hs
  obtain ⟨tsub, hsub, hsub_x, hsub_ex⟩ := dispatchBasic_writeExBody_reg_reg aluSub r hs
  obtain ⟨tmul, hmul, hmul_x, -⟩ := dispatchBasic_writeExBody_reg_reg aluMul r hs
  obtain ⟨tdiv, hdiv, hdiv_x, hdiv_ex⟩ := dispatchBasic_writeExBody_reg_reg aluDiv r hs
  obtain ⟨tdvi, hdvi, hdvi_x, hdvi_ex⟩ := dispatchBasic_writeExBody_reg_reg (aluDvi Params.sdivRound) r hs
  obtain ⟨tmod, hmod, hmod_x, hmod_ex⟩ := dispatchBasic_writeBody_reg_reg aluMod r hs
  obtain ⟨txor, hxor, hxor_x, hxor_ex⟩ := dispatchBasic_writeBody_reg_reg aluXor r hs
  rw [aluAdd_value, ← BitVec.two_mul] at hadd_x
  rw [aluMul_value] at hmul_x
  rw [aluSub_self] at hsub_x hsub_ex
  rw [aluDiv_self] at hdiv_x hdiv_ex
  rw [aluDvi_self] at hdvi_x hdvi_ex
  rw [aluMod_self] at hmod_x
  rw [aluXor_self] at hxor_x
  exact ⟨tadd, tsub, tmul, tdiv, tdvi, tmod, txor, hadd, hadd_x, hsub, hsub_x, hsub_ex, hmul, hmul_x,
    hdiv, hdiv_x, hdiv_ex, hdvi, hdvi_x, hdvi_ex, hmod, hmod_x, hmod_ex, hxor, hxor_x, hxor_ex⟩

end Sys2Proof.Machine
end

section
/-! SUPPORT. What the functions of Machine/Flags.lean compute, in the arithmetic of words and naturals: one equation per
instruction of spec/42_move_arith.md. -/

namespace Sys2Proof.Machine

/-! ### Sum and difference -/

theorem aluAdd_eq (bv av : Word) :
    aluAdd bv av = ⟨bv + av, if 0xFFFF < bv.toNat + av.toNat then 0x0001 else 0x0000⟩ := by
  have hcarry : uint bv + uint av > 0xFFFF ↔ 0xFFFF < bv.toNat + av.toNat := by unfold uint; omega
  rw [← aluAdd_value, aluAdd]
  simp only [hcarry]

theorem aluSub_eq (bv av : Word) :
    aluSub bv av = ⟨bv - av, if bv.toNat < av.toNat then 0xFFFF else 0x0000⟩ := by
  have hborrow : uint bv - uint av < 0 ↔ bv.toNat < av.toNat := by unfold uint; omega
  rw [← aluSub_value, aluSub]
  simp only [hborrow]

/-! ### Products -/

/-- The low half of a 32-bit pattern is the integer it stands for, modulo 2^16. -/
theorem extractLsb'_low_ofInt (p : Int) : (BitVec.ofInt 32 p).extractLsb' 0 16 = u16 p := by
  apply BitVec.eq_of_toNat_eq
  simp only [u16, BitVec.extractLsb'_toNat, BitVec.toNat_ofInt, Nat.shiftRight_zero]
  omega

/-- The high half of a 32-bit pattern is the floor of the integer by 2^16, modulo 2^16. -/
theorem extractLsb'_high_ofInt (p : Int) : (BitVec.ofInt 32 p).extractLsb' 16 16 = u16 (p >>> (16 : Nat)) := by
  apply BitVec.eq_of_toNat_eq
  simp only [u16, BitVec.extractLsb'_toNat, BitVec.toNat_ofInt, Nat.shiftRight_eq_div_pow, Int.shiftRight_eq_div_pow]
  omega

theorem setWidth_mul_setWidth (bv av : Word) :
    bv.setWidth 32 * av.setWidth 32 = BitVec.ofInt 32 (uint bv * uint av) := by
  rw [BitVec.ofInt_mul, uint, uint, BitVec.ofInt_natCast, BitVec.ofInt_natCast, BitVec.ofNat_toNat, BitVec.ofNat_toNat]

theorem signExtend_mul_signExtend (bv av : Word) :
    bv.signExtend 32 * av.signExtend 32 = BitVec.ofInt 32 (s16 bv * s16 av) :=
  (BitVec.ofInt_mul _ _).symm

theorem aluMul_eq (bv av : Word) : aluMul bv av =
    ⟨(bv.setWidth 32 * av.setWidth 32).extractLsb' 0 16, (bv.setWidth 32 * av.setWidth 32).extractLsb' 16 16⟩ := by
  rw [setWidth_mul_setWidth, extractLsb'_low_ofInt, extractLsb'_high_ofInt]
  rfl

theorem aluMli_eq (bv av : Word) : aluMli bv av =
    ⟨(bv.signExtend 32 * av.signExtend 32).extractLsb' 0 16,
      (bv.signExtend 32 * av.signExtend 32).extractLsb' 16 16⟩ := by
  rw [signExtend_mul_signExtend, extractLsb'_low_ofInt, extractLsb'_high_ofInt]
  rfl

/-- `MLI` stores the same product modulo 2^16 as `MUL` (R155). -/
theorem aluMli_value (bv av : Word) : (aluMli bv av).value = bv * av := by
  simp [aluMli, u16, s16, BitVec.ofInt_mul]

/-! ### Unsigned division -/

@[simp] theorem aluDiv_zero (bv : Word) : aluDiv bv 0 = ⟨0, 0⟩ := rfl
@[simp] theorem aluMod_zero (bv : Word) : aluMod bv 0 = 0 := rfl

/-- The fraction bits come from the remainder alone: the whole part of the quotient is a multiple of 2^16. -/
theorem ofNat_mul_div_eq_ofNat_mod_mul_div {a : Nat} (ha : 0 < a) (b : Nat) :
    BitVec.ofNat 16 (b * 65536 / a) = BitVec.ofNat 16 (b % a * 65536 / a) := by
  have hsplit : b * 65536 = b % a * 65536 + a * (b / a * 65536) := by
    conv_lhs => rw [← Nat.mod_add_div b a]
    ring
  rw [hsplit, Nat.add_mul_div_left _ _ ha, BitVec.ofNat_add, BitVec.ofNat_mul]
  simp

theorem aluDiv_of_ne_zero {av : Word} (h : av ≠ 0) (bv : Word) : aluDiv bv av =
    ⟨BitVec.ofNat 16 (bv.toNat / av.toNat), BitVec.ofNat 16 (bv.toNat % av.toNat * 65536 / av.toNat)⟩ := by
  have hpos : 0 < av.toNat := Nat.pos_of_ne_zero fun hz => h (BitVec.eq_of_toNat_eq hz)
  rw [aluDiv, if_neg h, ← ofNat_mul_div_eq_ofNat_mod_mul_div hpos, ← BitVec.ofInt_natCast, ← BitVec.ofInt_natCast]
  simp only [u16, uint, Int.natCast_ediv, Nat.cast_mul, Nat.cast_ofNat]

theorem aluMod_of_ne_zero {av : Word} (h : av ≠ 0) (bv : Word) :
    aluMod bv av = BitVec.ofNat 16 (bv.toNat % av.toNat) := by
  rw [aluMod, if_neg h, ← Int.emod_def, ← BitVec.ofInt_natCast, Int.natCast_emod]
  rfl

/-! ### Signed division -/

/-- The remainder that goes with `roundDiv`. -/
def roundMod (d : SDivRound) (p q : Int) : Int :=
  match d with
  | .trunc => p.tmod q
  | .floor => p.fmod q

/-- Dividend, quotient and remainder belong together (R160). -/
theorem mul_roundDiv_add_roundMod (d : SDivRound) (p q : Int) : q * roundDiv d p q + roundMod d p q = p := by
  cases d with
  | trunc => exact Int.mul_tdiv_add_tmod p q
  | floor => exact Int.mul_fdiv_add_fmod p q

theorem tmod_mul_self_nonneg (p q : Int) : 0 ≤ p.tmod q * p := by
  obtain hp | hp := le_total 0 p
  · exact mul_nonneg (Int.tmod_nonneg q hp) hp
  · have hneg := Int.tmod_nonneg q (neg_nonneg.mpr hp)
    rw [Int.neg_tmod] at hneg
    exact mul_nonneg_of_nonpos_of_nonpos (neg_nonneg.mp hneg) hp

theorem abs_tmod_lt (p : Int) {q : Int} (hq : q ≠ 0) : |p.tmod q| < |q| := by
  rw [Int.abs_eq_natAbs, Int.abs_eq_natAbs, Int.natAbs_tmod]
  exact Int.ofNat_lt.mpr (Nat.mod_lt _ (Int.natAbs_pos.mpr hq))

/-- The flooring remainder lies between 0 and the divisor; a negative divisor mirrors a positive one. -/
theorem fmod_bounds (p : Int) {q : Int} (hq : q ≠ 0) : 0 ≤ p.fmod q * q ∧ |p.fmod q| < |q| := by
  obtain hneg | hpos := hq.lt_or_gt
  · have hq' : 0 < -q := neg_pos.mpr hneg
    have hlo := Int.fmod_nonneg_of_pos (-p) hq'
    have hhi := Int.fmod_lt_of_pos (-p) hq'
    rw [Int.neg_fmod_neg] at hlo hhi
    refine ⟨mul_nonneg_of_nonpos_of_nonpos (neg_nonneg.mp hlo) hneg.le, ?_⟩
    rwa [abs_of_nonpos (neg_nonneg.mp hlo), abs_of_neg hneg]
  · have hlo := Int.fmod_nonneg_of_pos p hpos
    refine ⟨mul_nonneg hlo hpos.le, ?_⟩
    rw [abs_of_nonneg hlo, abs_of_pos hpos]
    exact Int.fmod_lt_of_pos p hpos

theorem abs_roundMod_lt (d : SDivRound) (p : Int) {q : Int} (hq : q ≠ 0) : |roundMod d p q| < |q| := by
  cases d with
  | trunc => exact abs_tmod_lt p hq
  | floor => exact (fmod_bounds p hq).2

@[simp] theorem aluDvi_zero (d : SDivRound) (bv : Word) : aluDvi d bv 0 = ⟨0, 0⟩ := rfl
@[simp] theorem aluMdi_zero (d : SDivRound) (bv : Word) : aluMdi d bv 0 = 0 := rfl

theorem aluDvi_of_ne_zero (d : SDivRound) {av : Word} (h : av ≠ 0) (bv : Word) : aluDvi d bv av =
    ⟨u16 (roundDiv d (s16 bv) (s16 av)), u16 (roundDiv d (s16 bv * 65536) (s16 av))⟩ :=
  if_neg (mt (s16_eq_zero_iff av).mp h)

theorem aluMdi_of_ne_zero (d : SDivRound) {av : Word} (h : av ≠ 0) (bv : Word) :
    aluMdi d bv av = u16 (roundMod d (s16 bv) (s16 av)) := by
  rw [aluMdi, if_neg (mt (s16_eq_zero_iff av).mp h)]
  exact congrArg u16 (sub_eq_of_eq_add' (mul_roundDiv_add_roundMod d _ _).symm)

/-- The truncated quotient, cut to 16 bits, is the library's signed division (R157). -/
theorem u16_tdiv (bv av : Word) : u16 ((s16 bv).tdiv (s16 av)) = bv.sdiv av := by
  apply BitVec.eq_of_toInt_eq
  rw [u16, s16, s16, BitVec.toInt_ofInt, BitVec.toInt_sdiv]

/-- The truncated remainder of two words is the library's signed remainder (R159). -/
theorem u16_tmod (bv av : Word) : u16 ((s16 bv).tmod (s16 av)) = bv.srem av := by
  rw [s16, s16, ← BitVec.toInt_srem, u16, BitVec.ofInt_toInt]

/-- The flooring remainder of two words is the library's signed modulus (R159). -/
theorem u16_fmod (bv av : Word) : u16 ((s16 bv).fmod (s16 av)) = bv.smod av := by
  rw [s16, s16, ← BitVec.toInt_smod, u16, BitVec.ofInt_toInt]

/-- A remainder fits a word: what `MDI` stores reads back as the remainder itself (R160). -/
theorem s16_aluMdi (d : SDivRound) {av : Word} (h : av ≠ 0) (bv : Word) :
    s16 (aluMdi d bv av) = roundMod d (s16 bv) (s16 av) := by
  rw [aluMdi_of_ne_zero d h]
  cases d with
  | trunc => exact (congrArg s16 (u16_tmod bv av)).trans (BitVec.toInt_srem bv av)
  | floor => exact (congrArg s16 (u16_fmod bv av)).trans BitVec.toInt_smod

/-- Settles O32, with `roundDiv` and the remainder that goes with it. -/
theorem signedRemainderBelongsToTheQuotient : Obligations.SignedRemainderBelongsToTheQuotient := by
  intro d bv av hav
  have hsa : s16 av ≠ 0 := mt (s16_eq_zero_iff av).mp hav
  refine ⟨roundDiv d (s16 bv) (s16 av), roundMod d (s16 bv) (s16 av), (mul_roundDiv_add_roundMod d _ _).symm,
    abs_roundMod_lt d _ hsa, by rw [aluDvi_of_ne_zero d hav], s16_aluMdi d hav bv, ?_, ?_⟩
  · rintro rfl
    exact tmod_mul_self_nonneg _ _
  · rintro rfl
    exact (fmod_bounds _ hsa).1

end Sys2Proof.Machine
end

section
/-! SUPPORT. The results of the move and arithmetic instructions: the body's writes on the resolved operands, with the
values told by the equations of the functions they compute. -/

namespace Sys2Proof.Machine

/-- A basic opcode in the field `o` alone decides the instruction (R71, R77). -/
theorem decodesAs_of_basicOf {o : BitVec 5} {mk : Mode → Mode → Instr} (ho : o ≠ 0)
    (hmk : ∀ b a, basicOf o b a = mk b a) : decodesAs o mk := by
  rintro w x1 x2 rfl
  exact ⟨_, _, (if_neg ho).trans (hmk _ _)⟩

/-! ### The bodies on the resolved operands -/

section Results
variable {b a : Mode} {s : State} (hs : s.skip = false)
include hs

theorem dispatchBasic_writeBody_of_eq (f : Word → Word → Word) {v : Word}
    (hf : f (operandsOf b a s).bv (operandsOf b a s).av = v) :
    dispatchBasic (writeBody f) b a s = .next (writeOp (operandsOf b a s).b v (operandsOf b a s).st) := by
  subst hf
  exact dispatchBasic_executed _ _ _ _ hs

theorem dispatchBasic_writeExBody_of_eq (g : Word → Word → AluResult) {v e : Word}
    (hg : g (operandsOf b a s).bv (operandsOf b a s).av = ⟨v, e⟩) :
    dispatchBasic (writeExBody g) b a s =
      .next (writeOp (operandsOf b a s).b v ((operandsOf b a s).st.setEx e)) := by
  obtain rfl : _ = v := congrArg AluResult.value hg
  obtain rfl : _ = e := congrArg AluResult.ex hg
  exact dispatchBasic_executed _ _ _ _ hs

end Results

/-- Settles O27: `SET`'s body is the write of what its source reads. -/
theorem setCopiesItsSource : Obligations.SetCopiesItsSource :=
  ⟨decodesAs_of_basicOf (by decide) fun _ _ => rfl, fun b a s hs => dispatchBasic_executed bodySet b a s hs⟩

/-- Settles O28, by `aluAdd_eq` and `aluSub_eq`. -/
theorem addAndSubReportCarryAndBorrow : Obligations.AddAndSubReportCarryAndBorrow :=
  ⟨decodesAs_of_basicOf (by decide) fun _ _ => rfl, decodesAs_of_basicOf (by decide) fun _ _ => rfl,
    fun _ _ _ hs => ⟨dispatchBasic_writeExBody_of_eq hs aluAdd (aluAdd_eq _ _),
      dispatchBasic_writeExBody_of_eq hs aluSub (aluSub_eq _ _)⟩⟩

/-- Settles O29, by `aluMul_eq` and `aluMli_eq`; both low halves are the product of the two words. -/
theorem mulAndMliSplitTheProduct : Obligations.MulAndMliSplitTheProduct := by
  refine ⟨decodesAs_of_basicOf (by decide) fun _ _ => rfl, decodesAs_of_basicOf (by decide) fun _ _ => rfl,
    fun b a s hs => ⟨dispatchBasic_writeExBody_of_eq hs aluMul (aluMul_eq _ _),
      dispatchBasic_writeExBody_of_eq hs aluMli (aluMli_eq _ _), ?_⟩⟩
  have hlow (bv av : Word) : (aluMli bv av).value = (aluMul bv av).value :=
    (aluMli_value bv av).trans (aluMul_value bv av).symm
  simpa only [aluMul_eq, aluMli_eq] using hlow (operandsOf b a s).bv (operandsOf b a s).av

/-- Settles O30: a zero divisor has its own equations, every other divides as a natural. -/
theorem divAndModAreUnsigned : Obligations.DivAndModAreUnsigned := by
  refine ⟨decodesAs_of_basicOf (by decide) fun _ _ => rfl, decodesAs_of_basicOf (by decide) fun _ _ => rfl,
    fun b a s hs => ⟨fun hav => ?_, fun hav => ?_⟩⟩
  · exact ⟨dispatchBasic_writeExBody_of_eq hs aluDiv (by rw [hav, aluDiv_zero]),
      dispatchBasic_writeBody_of_eq hs aluMod (by rw [hav, aluMod_zero])⟩
  · exact ⟨dispatchBasic_writeExBody_of_eq hs aluDiv (aluDiv_of_ne_zero hav _),
      dispatchBasic_writeBody_of_eq hs aluMod (aluMod_of_ne_zero hav _)⟩

/-- Settles O31: SDIV_ROUND is `trunc`, and the rounded quotient and remainder are those of the library. -/
theorem dviAndMdiAreSigned : Obligations.DviAndMdiAreSigned := by
  refine ⟨decodesAs_of_basicOf (by decide) fun _ _ => rfl, decodesAs_of_basicOf (by decide) fun _ _ => rfl,
    fun b a s hs => ⟨fun hav => ?_, fun hav => ?_⟩, fun bv av hav => ⟨aluDvi_of_ne_zero .floor hav bv, ?_⟩⟩
  · exact ⟨dispatchBasic_writeExBody_of_eq hs (aluDvi Params.sdivRound) (by rw [hav, aluDvi_zero]),
      dispatchBasic_writeBody_of_eq hs (aluMdi Params.sdivRound) (by rw [hav, aluMdi_zero])⟩
  · refine ⟨dispatchBasic_writeExBody_of_eq hs (aluDvi Params.sdivRound) ?_,
      dispatchBasic_writeBody_of_eq hs (aluMdi Params.sdivRound) ?_⟩
    · rw [aluDvi_of_ne_zero _ hav, ← u16_tdiv]
      rfl
    · exact (aluMdi_of_ne_zero .trunc hav _).trans (u16_tmod _ _)
  · exact (aluMdi_of_ne_zero .floor hav bv).trans (u16_fmod bv av)

/-! ### The multi-word idioms -/

/-- A register destination: its new content and `ex`, with every other register and `skip` as before. -/
theorem dispatchBasic_writeExBody_reg (g : Word → Word → AluResult) (r : Reg) (a : Mode) {s : State}
    (hs : s.skip = false) : ∃ t, dispatchBasic (writeExBody g) (.reg r) a s = .next t ∧ t.skip = false ∧
      t.ex = (g (s.x r) (operandsOf (.reg r) a s).av).ex ∧
      ∀ q, t.x q = if q = r then (g (s.x r) (operandsOf (.reg r) a s).av).value else s.x q := by
  have hb : (operandsOf (.reg r) a s).b = .reg r := rfl
  have hx (q : Reg) : (operandsOf (.reg r) a s).st.x q = s.x q := resolveBoth_x _ _ s.fetched q
  have hbv : (operandsOf (.reg r) a s).bv = s.x r := hx r
  have hskip : (operandsOf (.reg r) a s).st.skip = false := (resolveBoth_skip _ _ s.fetched).trans hs
  exact ⟨_, dispatchBasic_writeExBody_of_eq hs g rfl, by simp [hb, hbv, hx, hskip, writeOp]⟩

@[simp] theorem av_operandsOf_reg (b : Reg) (r : Reg) (s : State) : (operandsOf (.reg b) (.reg r) s).av = s.x r := rfl
@[simp] theorem av_operandsOf_ex (b : Reg) (s : State) : (operandsOf (.reg b) .ex s).av = s.ex := rfl

/-- The idiom's three instructions: what `g` reports of the low words is added to the high word before `g` takes the
other high word. -/
theorem multiWord_chain (g : Word → Word → AluResult) {lo hi lo' hi' : Reg} {s : State} (hs : s.skip = false)
    (hlo : lo ≠ hi) (hhi' : hi' ≠ lo) (hhi : hi' ≠ hi) :
    ∃ t1 t2 t3, dispatchBasic (writeExBody g) (.reg lo) (.reg lo') s = .next t1 ∧
      dispatchBasic (writeExBody aluAdd) (.reg hi) .ex t1 = .next t2 ∧
      dispatchBasic (writeExBody g) (.reg hi) (.reg hi') t2 = .next t3 ∧
      t3.x lo = (g (s.x lo) (s.x lo')).value ∧
      t3.x hi = (g (s.x hi + (g (s.x lo) (s.x lo')).ex) (s.x hi')).value := by
  obtain ⟨t1, h1, hs1, hex1, hx1⟩ := dispatchBasic_writeExBody_reg g lo (.reg lo') hs
  obtain ⟨t2, h2, hs2, -, hx2⟩ := dispatchBasic_writeExBody_reg aluAdd hi .ex hs1
  obtain ⟨t3, h3, -, -, hx3⟩ := dispatchBasic_writeExBody_reg g hi (.reg hi') hs2
  refine ⟨t1, t2, t3, h1, h2, h3, ?_, ?_⟩ <;>
    simp [hx3, hx2, hx1, hex1, hlo, hlo.symm, hhi', hhi, aluAdd_value]

theorem toNat_append_words (hi lo : Word) : (hi ++ lo : BitVec 32).toNat = hi.toNat * 65536 + lo.toNat := by
  rw [BitVec.toNat_append, ← Nat.shiftLeft_add_eq_or_of_lt lo.isLt, Nat.shiftLeft_eq]

theorem append_add_append (h l h' l' : Word) :
    ((h + (if 0xFFFF < l.toNat + l'.toNat then 0x0001 else 0x0000) + h') ++ (l + l') : BitVec 32) =
      (h ++ l) + (h' ++ l') := by
  apply BitVec.eq_of_toNat_eq
  split_ifs with hcarry <;> simp only [toNat_append_words, BitVec.toNat_add] <;> bv_omega

/-- 0xFFFF added to the high word is the borrow taken from it. -/
theorem append_sub_append (h l h' l' : Word) :
    ((h + (if l.toNat < l'.toNat then 0xFFFF else 0x0000) - h') ++ (l - l') : BitVec 32) =
      (h ++ l) - (h' ++ l') := by
  apply BitVec.eq_of_toNat_eq
  split_ifs with hborrow <;> simp only [toNat_append_words, BitVec.toNat_sub] <;> bv_omega

/-- Settles O34: one chain of dispatches for both idioms, and the carry and the borrow as 32-bit arithmetic. -/
theorem multiWordSumAndDifferenceGoThroughEx : Obligations.MultiWordSumAndDifferenceGoThroughEx := by
  intro lo hi lo' hi' s hs hlo hhi' hhi
  obtain ⟨t1, t2, t3, ht1, ht2, ht3, htlo, hthi⟩ := multiWord_chain aluAdd hs hlo hhi' hhi (lo' := lo')
  obtain ⟨u1, u2, u3, hu1, hu2, hu3, hulo, huhi⟩ := multiWord_chain aluSub hs hlo hhi' hhi (lo' := lo')
  refine ⟨t1, t2, t3, u1, u2, u3, ht1, ht2, ht3, ?_, hu1, hu2, hu3, ?_⟩
  · rw [htlo, hthi, aluAdd_value, aluAdd_eq]
    exact append_add_append _ _ _ _
  · rw [hulo, huhi, aluSub_value, aluSub_eq]
    exact append_sub_append _ _ _ _

end Sys2Proof.Machine
end

section
/-! SUPPORT. What the shift functions of Machine/Flags.lean compute, as floors of exact quotients (R174 to R176) and as
shifts of the word (R177), and the results of the bitwise and shift instructions on the resolved operands. -/

namespace Sys2Proof.Machine

/-! ### Floors of exact quotients and products -/

theorem aluShr_eq_div (bv av : Word) : aluShr bv av =
    ⟨BitVec.ofNat 16 (bv.toNat / 2 ^ av.toNat), BitVec.ofNat 16 (bv.toNat * 65536 / 2 ^ av.toNat)⟩ := by
  simp only [aluShr, u16, uint, Int.shiftRight_eq_div_pow, ← BitVec.ofInt_natCast, Int.natCast_ediv, Nat.cast_mul,
    Nat.cast_ofNat]

/-- The shift of a signed integer floors; so does `ediv` by a positive divisor (R8). -/
theorem shiftRight_eq_fdiv (p : Int) (n : Nat) : p >>> n = p.fdiv (2 ^ n) := by
  rw [Int.shiftRight_eq_div_pow, Int.fdiv_eq_ediv_of_nonneg p (by positivity), Nat.cast_pow, Nat.cast_ofNat]

theorem aluAsr_eq_fdiv (bv av : Word) : aluAsr bv av =
    ⟨BitVec.ofInt 16 (bv.toInt.fdiv (2 ^ av.toNat)), BitVec.ofInt 16 ((bv.toInt * 65536).fdiv (2 ^ av.toNat))⟩ := by
  simp only [aluAsr, u16, s16, shiftRight_eq_fdiv]

theorem aluShl_eq_mul (bv av : Word) : aluShl bv av =
    ⟨BitVec.ofNat 16 (bv.toNat * 2 ^ av.toNat), BitVec.ofNat 16 (bv.toNat * 2 ^ av.toNat / 65536)⟩ := by
  simp only [aluShl, u16, ← Int.natCast_shiftRight, BitVec.ofInt_natCast, Nat.shiftLeft_eq, Nat.shiftRight_eq_div_pow,
    Nat.reducePow]

/-! ### Shifts of an integer, cut to 16 bits -/

theorem u16_uint (v : Word) : u16 (uint v) = v := by
  rw [u16, uint, BitVec.ofInt_natCast, BitVec.ofNat_toNat, BitVec.setWidth_eq]

theorem u16_s16 (v : Word) : u16 (s16 v) = v := BitVec.ofInt_toInt

theorem u16_shiftLeft (p : Int) (n : Nat) : u16 (p <<< n) = u16 p <<< n := by
  have hpow : BitVec.ofNat 16 (2 ^ n) = BitVec.twoPow 16 n :=
    BitVec.eq_of_toNat_eq (BitVec.toNat_twoPow 16 n).symm
  rw [u16, Int.shiftLeft_eq', BitVec.ofInt_mul, BitVec.ofInt_natCast, hpow, BitVec.shiftLeft_eq_mul_twoPow, u16]

theorem u16_uint_shiftRight (v : Word) (n : Nat) : u16 (uint v >>> n) = v >>> n := by
  apply BitVec.eq_of_toNat_eq
  rw [u16, uint, ← Int.natCast_shiftRight, BitVec.ofInt_natCast, BitVec.toNat_ofNat, BitVec.toNat_ushiftRight]
  exact Nat.mod_eq_of_lt ((Nat.shiftRight_le _ _).trans_lt v.isLt)

/-- An amount up to 16 leaves a product by a power of 2: the bits shifted out stand at the top of the word. -/
theorem u16_mul_65536_shiftRight_of_le (p : Int) {n : Nat} (h : n ≤ 16) :
    u16 ((p * 65536) >>> n) = u16 p <<< (16 - n) := by
  rw [← u16_shiftLeft, ← Int.shiftLeft_shiftRight_eq_shiftLeft_of_le h, Int.shiftLeft_eq]
  rfl

/-- An amount of 16 or more shifts the integer itself by what it exceeds 16. -/
theorem mul_65536_shiftRight_of_ge (p : Int) {n : Nat} (h : 16 ≤ n) : (p * 65536) >>> n = p >>> (n - 16) := by
  rw [← Int.shiftLeft_shiftRight_eq_shiftRight_of_le h, Int.shiftLeft_eq]
  rfl

/-! ### The closed forms -/

/-- `SHL` shifts the unsigned reading; the formula of R176 is over the naturals. -/
theorem aluShl_eq_shiftLeft (bv av : Word) :
    aluShl bv av = ⟨u16 (uint bv <<< av.toNat), u16 (uint bv <<< av.toNat >>> (16 : Nat))⟩ := by
  rw [aluShl, Int.natCast_shiftLeft]
  rfl

/-- All 16 bits shifted out, the sign is left. -/
theorem sshiftRight_of_ge (v : Word) {n : Nat} (h : 16 ≤ n) :
    v.sshiftRight n = if v.msb then 0xFFFF else 0x0000 := by
  split_ifs with hmsb
  · rw [BitVec.sshiftRight_eq_of_msb_true hmsb, BitVec.ushiftRight_eq_zero h]
    rfl
  · rw [BitVec.sshiftRight_eq_of_msb_false (Bool.eq_false_of_not_eq_true hmsb), BitVec.ushiftRight_eq_zero h]
    rfl

section ClosedForms
variable {av : Word} (bv : Word)

theorem aluShr_of_le (h : av.toNat ≤ 16) : aluShr bv av = ⟨bv >>> av.toNat, bv <<< (16 - av.toNat)⟩ := by
  rw [aluShr, u16_uint_shiftRight, u16_mul_65536_shiftRight_of_le _ h, u16_uint]

theorem aluShr_of_ge (h : 16 ≤ av.toNat) : aluShr bv av = ⟨0, bv >>> (av.toNat - 16)⟩ := by
  rw [aluShr, mul_65536_shiftRight_of_ge _ h, u16_uint_shiftRight, u16_uint_shiftRight, BitVec.ushiftRight_eq_zero h]
  rfl

theorem aluAsr_of_le (h : av.toNat ≤ 16) : aluAsr bv av = ⟨bv.sshiftRight av.toNat, bv <<< (16 - av.toNat)⟩ := by
  rw [aluAsr, u16_mul_65536_shiftRight_of_le _ h, u16_s16]
  rfl

theorem aluAsr_of_ge (h : 16 ≤ av.toNat) :
    aluAsr bv av = ⟨if bv.msb then 0xFFFF else 0x0000, bv.sshiftRight (av.toNat - 16)⟩ := by
  rw [aluAsr, mul_65536_shiftRight_of_ge _ h, ← sshiftRight_of_ge bv h]
  rfl

theorem aluShl_of_le (h : av.toNat ≤ 16) : aluShl bv av = ⟨bv <<< av.toNat, bv >>> (16 - av.toNat)⟩ := by
  rw [aluShl_eq_shiftLeft, Int.shiftLeft_shiftRight_eq_shiftRight_of_le h, u16_shiftLeft, u16_uint_shiftRight, u16_uint]

theorem aluShl_of_ge (h : 16 ≤ av.toNat) : aluShl bv av = ⟨0, bv <<< (av.toNat - 16)⟩ := by
  rw [aluShl_eq_shiftLeft, Int.shiftLeft_shiftRight_eq_shiftLeft_of_le h, u16_shiftLeft, u16_shiftLeft, u16_uint,
    BitVec.shiftLeft_eq_zero h]
  rfl

end ClosedForms

/-- Settles O37: each shift has one equation up to 16 and one from 16 on; from 32 on the word in `ex` is shifted out
too. -/
theorem shiftClosedFormsHoldForEveryAmount : Obligations.ShiftClosedFormsHoldForEveryAmount := by
  intro bv av
  refine ⟨aluShr_of_le bv, fun h _ => aluShr_of_ge bv (by omega), fun h => ?_,
    fun h => aluAsr_of_le bv (by omega), fun h => ?_, fun h _ => aluAsr_of_ge bv (by omega), fun h => ?_,
    fun h => aluShl_of_le bv (by omega), fun h _ => aluShl_of_ge bv h, fun h => ?_⟩
  · rw [aluShr_of_ge bv (by omega), BitVec.ushiftRight_eq_zero (by omega)]
    rfl
  · rw [aluAsr_of_ge bv h.ge, h, BitVec.sshiftRight_zero]
  · rw [aluAsr_of_ge bv (by omega), sshiftRight_of_ge bv (by omega)]
  · rw [aluShl_of_ge bv (by omega), BitVec.shiftLeft_eq_zero (by omega)]
    rfl

/-! ### The instructions on the resolved operands -/

/-- Settles O36, by `aluShr_eq_div`, `aluAsr_eq_fdiv` and `aluShl_eq_mul`. -/
theorem shiftsComputeOverUnboundedIntegers : Obligations.ShiftsComputeOverUnboundedIntegers :=
  ⟨decodesAs_of_basicOf (by decide) fun _ _ => rfl, decodesAs_of_basicOf (by decide) fun _ _ => rfl,
    decodesAs_of_basicOf (by decide) fun _ _ => rfl,
    fun _ _ _ hs => ⟨dispatchBasic_writeExBody_of_eq hs aluShr (aluShr_eq_div _ _),
      dispatchBasic_writeExBody_of_eq hs aluAsr (aluAsr_eq_fdiv _ _),
      dispatchBasic_writeExBody_of_eq hs aluShl (aluShl_eq_mul _ _)⟩⟩

/-- Settles O35: the values written are the library's bitwise operations, told bit by bit. -/
theorem bitwiseInstructionsWorkBitByBit : Obligations.BitwiseInstructionsWorkBitByBit :=
  ⟨decodesAs_of_basicOf (by decide) fun _ _ => rfl, decodesAs_of_basicOf (by decide) fun _ _ => rfl,
    decodesAs_of_basicOf (by decide) fun _ _ => rfl,
    fun _ _ _ hs => ⟨_, _, _, dispatchBasic_writeBody_of_eq hs aluAnd rfl,
      dispatchBasic_writeBody_of_eq hs aluBor rfl, dispatchBasic_writeBody_of_eq hs aluXor rfl,
      fun _ _ => ⟨BitVec.getLsbD_and, BitVec.getLsbD_or, BitVec.getLsbD_xor⟩⟩⟩

end Sys2Proof.Machine
end

section
/-! SUPPORT. The predicates of the conditionals as comparisons of words (R181 to R188), and what each conditional leaves
on the resolved operands. -/

namespace Sys2Proof.Machine

/-! ### The predicates as comparisons of words -/

section Predicates
variable (bv av : Word)

theorem predIfb_eq : predIfb bv av = (bv &&& av != 0) := decide_not

theorem predIfc_eq : predIfc bv av = (bv &&& av == 0) := rfl

theorem predIfe_eq : predIfe bv av = (bv == av) := rfl

theorem predIfn_eq : predIfn bv av = (bv != av) := decide_not

/-- The unsigned readings compare as the naturals they are (R8). -/
theorem predIfg_eq_ult : predIfg bv av = av.ult bv := decide_eq_decide.mpr Int.ofNat_lt

theorem predIfa_eq_slt : predIfa bv av = av.slt bv := rfl

theorem predIfl_eq_ult : predIfl bv av = bv.ult av := decide_eq_decide.mpr Int.ofNat_lt

theorem predIfu_eq_slt : predIfu bv av = bv.slt av := rfl

end Predicates

/-! ### The conditionals on the resolved operands -/

/-- `exec_conditional` on the resolved operands, for a predicate whose value there is known. -/
theorem exec_conditional_of_eq {i : Instr} {b : Mode} {s : State} {p : Word → Word → Bool} {v : Bool}
    (hb : i.bMode = some b) (hp : ifPred i = some p) (hs : s.skip = false)
    (hv : p (operandsOf b i.aMode s).bv (operandsOf b i.aMode s).av = v) :
    exec i s = .next ((operandsOf b i.aMode s).st.setSkip (!v)) := by
  obtain ⟨b', hb', he⟩ := exec_conditional hp hs
  obtain rfl := Option.some.inj (hb'.symm.trans hb)
  rw [he, hv, operandsOf_st hb]

/-- Settles O38: every conditional is `exec_conditional_of_eq` with the equation of its predicate. -/
theorem conditionalsSetSkipWhenTheirPredicateFails : Obligations.ConditionalsSetSkipWhenTheirPredicateFails :=
  ⟨decodesAs_of_basicOf (by decide) fun _ _ => rfl, decodesAs_of_basicOf (by decide) fun _ _ => rfl,
    decodesAs_of_basicOf (by decide) fun _ _ => rfl, decodesAs_of_basicOf (by decide) fun _ _ => rfl,
    decodesAs_of_basicOf (by decide) fun _ _ => rfl, decodesAs_of_basicOf (by decide) fun _ _ => rfl,
    decodesAs_of_basicOf (by decide) fun _ _ => rfl, decodesAs_of_basicOf (by decide) fun _ _ => rfl,
    fun _ _ _ hs => ⟨exec_conditional_of_eq rfl rfl hs (predIfb_eq _ _),
      exec_conditional_of_eq rfl rfl hs (predIfc_eq _ _),
      exec_conditional_of_eq rfl rfl hs (predIfe_eq _ _),
      exec_conditional_of_eq rfl rfl hs (predIfn_eq _ _),
      exec_conditional_of_eq rfl rfl hs (predIfg_eq_ult _ _),
      exec_conditional_of_eq rfl rfl hs (predIfa_eq_slt _ _),
      exec_conditional_of_eq rfl rfl hs (predIfl_eq_ult _ _),
      exec_conditional_of_eq rfl rfl hs (predIfu_eq_slt _ _)⟩⟩

end Sys2Proof.Machine
end

section
/-! SUPPORT. The call and the return: what an executed `JSR` does, by whether its body finds `sp = 0` (R200 to R203), and
what `SET PC, POP` does (R205). -/

namespace Sys2Proof.Machine

/-! ### The state after the push -/

@[simp] theorem length_jsr (a : Mode) : (Instr.jsr a).length = 1 + a.extra.length := length_eq (.jsr a)

/-- The state in which a call reads its operand: resolved, with the address of the next instruction pushed (R202). -/
def jsrPushed (a : Mode) (s : State) : State :=
  ((resolve .a a s.fetched).2.setSp ((resolve .a a s.fetched).2.sp - 1)).memWrite
    ((resolve .a a s.fetched).2.sp - 1) (s.pc + BitVec.ofNat 16 (Instr.jsr a).length)

section Pushed
variable (a : Mode) (s : State)

theorem resolve_jsr_snd : (resolve .a a s.fetched).2 = passed (.jsr a) s := resolve_a_snd (i := .jsr a) rfl s

@[simp] theorem jsrPushed_sp : (jsrPushed a s).sp = s.sp + spMove .a a - 1 := by simp [jsrPushed]

@[simp] theorem jsrPushed_pc : (jsrPushed a s).pc = s.pc + BitVec.ofNat 16 (Instr.jsr a).length := by
  rw [jsrPushed, resolve_jsr_snd]
  rfl

@[simp] theorem jsrPushed_memRead (p : Word) : (jsrPushed a s).memRead p =
    if p = s.sp + spMove .a a - 1 then s.pc + BitVec.ofNat 16 (Instr.jsr a).length else s.memRead p := by
  simp [jsrPushed]

end Pushed

/-! ### The call -/

section Call
variable {a : Mode} {s : State} (hs : s.skip = false)
include hs

/-- With `sp` not 0 the call pushes, and only then reads its operand and jumps (R200, R202). -/
theorem exec_jsr_calls (hsp : (resolve .a a s.fetched).2.sp ≠ 0) :
    exec (.jsr a) s = .next ((jsrPushed a s).setPc (readOp (resolve .a a s.fetched).1 (jsrPushed a s))) := by
  have hret : s.pc + BitVec.ofNat 16 (Instr.jsr a).length = (resolve .a a s.fetched).2.pc := by
    rw [resolve_jsr_snd, passed_pc]
  rw [jsrPushed, hret, ← bodyJsr_calls _ _ hsp]
  exact dispatchSpecial_executed bodyJsr a s hs

/-- With `sp = 0` the call raises `StackOverflow` and writes nothing (R203). -/
theorem exec_jsr_overflows (hsp : (resolve .a a s.fetched).2.sp = 0) :
    exec (.jsr a) s = .next ((passed (.jsr a) s).setStatus (.halted .stackOverflow)) := by
  rw [← resolve_jsr_snd, ← bodyJsr_overflow _ _ hsp]
  exact dispatchSpecial_executed bodyJsr a s hs

end Call

/-- Settles O41: the special opcode 0x01 is `JSR`'s, and the next state is told by `exec_jsr_calls`. -/
theorem jsrPushesTheReturnAddressThenJumps : Obligations.JsrPushesTheReturnAddressThenJumps :=
  ⟨fun w x1 _ ho hb => ⟨decodeMode (fieldA w) x1, by rw [decodeWords, if_pos ho, hb]; rfl⟩,
    fun _ _ hs => exec_jsr_calls hs⟩

/-- Settles O43, by `exec_jsr_overflows`. -/
theorem jsrAtZeroStackPointerOverflows : Obligations.JsrAtZeroStackPointerOverflows :=
  fun _ _ => exec_jsr_overflows

/-- Settles O42: each operand is read in `jsrPushed`. A `POP` operand has moved `sp` up before the push, which writes the
return address over the word popped, or finds `sp = 0` where `sp` was 0xFFFF. -/
theorem jsrReadsItsOperandAfterThePush : Obligations.JsrReadsItsOperandAfterThePush := by
  intro s hs
  refine ⟨fun hsp => ?_, fun hsp => ?_, fun hsp => ?_⟩
  · have hpeek : s.sp ≠ s.sp - 1#16 := by bv_omega
    refine ⟨_, _, _, _, _, exec_jsr_calls hs hsp, rfl, exec_jsr_calls hs hsp, rfl, rfl,
      exec_jsr_calls hs hsp, jsrPushed_pc .pc s, ?_, exec_jsr_calls hs hsp, ?_, exec_jsr_calls hs hsp, ?_⟩
    · simp [spMove, Mode.extra]
    · simp [resolve, readOp, spMove, hpeek]
    · simp [resolve, readOp, spMove, Mode.extra]
  · have hpop : (resolve .a .stack s.fetched).2.sp ≠ 0 := show s.sp + 1 ≠ 0 by bv_omega
    refine ⟨_, exec_jsr_calls hs hpop, ?_, ?_, ?_⟩
    · simp [resolve, readOp, spMove, Mode.extra]
    · simp [spMove]
    · simp [spMove, Mode.extra]
  · have hpop : (resolve .a .stack s.fetched).2.sp = 0 := show s.sp + 1 = 0 by simp [hsp]
    exact ⟨_, exec_jsr_overflows hs hpop, rfl, hpop⟩

/-! ### The return -/

/-- `SET PC, POP` jumps to the word at `sp` and moves `sp` past it (R205). -/
theorem exec_return {u : State} (hu : u.skip = false) :
    exec (.set .pc .stack) u = .next ((u.fetched.setSp (u.sp + 1)).setPc (u.memRead u.sp)) :=
  dispatchBasic_executed bodySet .pc .stack u hu

/-- Settles O44: the return pops the word that the call left at its `sp`. -/
theorem returnUndoesTheCall : Obligations.ReturnUndoesTheCall := by
  intro a s t u hs hsp ht hu husp hmem
  obtain rfl := Host.Outcome.next.inj ((exec_jsr_calls hs hsp).symm.trans ht)
  refine ⟨_, exec_return hu, ?_, ?_, rfl⟩
  · rw [setPc_pc, husp, hmem]
    simp
  · simp [husp]

end Sys2Proof.Machine
end

section
/-! SUPPORT. The status after a dispatch of a running core is the condition `raisedBy` tells, and each of the two fatal
conditions has the one cause its rule gives (R211, R212). -/

namespace Sys2Proof.Machine

variable {i : Instr} {s : State}

/-- `UnsupportedInstruction` is raised by exactly the executed words with no semantics, with their own address (R211). -/
theorem raisedBy_eq_unsupported_iff {p : Word} : raisedBy i s = some (.unsupportedInstruction p) ↔
    s.skip = false ∧ isUnsupported i = true ∧ p = s.pc := by
  constructor
  · intro h
    obtain ⟨hs, ⟨hu, hc⟩ | ⟨_, _, _, hc⟩⟩ := raisedBy_eq_some h
    · exact ⟨hs, hu, HaltCause.unsupportedInstruction.inj hc⟩
    · cases hc
  · rintro ⟨hs, hu, rfl⟩
    exact raisedBy_unsupported hs hu

/-- `StackOverflow` is raised by exactly the executed calls that resolution leaves at `sp = 0` (R212). -/
theorem raisedBy_eq_overflow_iff : raisedBy i s = some .stackOverflow ↔
    s.skip = false ∧ ∃ a, i = .jsr a ∧ (passed i s).sp = 0 := by
  constructor
  · intro h
    obtain ⟨hs, ⟨_, hc⟩ | ⟨a, hi, hsp, _⟩⟩ := raisedBy_eq_some h
    · cases hc
    · exact ⟨hs, a, hi, hsp⟩
  · rintro ⟨hs, a, hi, hsp⟩
    exact raisedBy_overflow hs hi hsp

/-- A dispatch never raises the budget's halt (R210). -/
theorem raisedBy_ne_budgetExhausted : raisedBy i s ≠ some .budgetExhausted := by
  intro h
  obtain ⟨_, ⟨_, hc⟩ | ⟨_, _, _, hc⟩⟩ := raisedBy_eq_some h <;> cases hc

/-- A dispatch halts a running core with the condition it raises, and with no other. -/
theorem status_eq_halted_iff_raisedBy {t : State} {c : HaltCause} (h : exec i s = .next t)
    (hst : s.status = .running) : t.status = .halted c ↔ raisedBy i s = some c := by
  cases hr : raisedBy i s with
  | none => simp [status_eq_of_raisedBy_none hr h, hst]
  | some d =>
    obtain rfl := Host.Outcome.next.inj ((exec_raised hr).symm.trans h)
    simp

/-- Settles O48: the status is read off `raisedBy`, and each of its values has its one cause. -/
theorem fatalConditionsHaveNoOtherCause : Obligations.FatalConditionsHaveNoOtherCause := by
  intro i s t h hst
  refine ⟨fun p => (status_eq_halted_iff_raisedBy h hst).trans raisedBy_eq_unsupported_iff, ?_,
    fun hb => raisedBy_ne_budgetExhausted ((status_eq_halted_iff_raisedBy h hst).mp hb)⟩
  rw [status_eq_halted_iff_raisedBy h hst, raisedBy_eq_overflow_iff]
  refine and_congr_right fun _ => exists_congr fun a => and_congr_right ?_
  rintro rfl
  rw [resolve_jsr_snd]

end Sys2Proof.Machine
end

section
/-! SUPPORT. The host operations `Preset` and `Inspect` (R243, R245): each preset is one update of the state, and
`Inspect` shows a halted core whole. -/

namespace Sys2Proof.Machine

theorem hostPreset_reg (r : Reg) (v : Word) (s : State) : hostPreset (.reg r) v s = s.setX r v := rfl
theorem hostPreset_sp (v : Word) (s : State) : hostPreset .sp v s = s.setSp v := rfl
theorem hostPreset_ex (v : Word) (s : State) : hostPreset .ex v s = s.setEx v := rfl
theorem hostPreset_mem (p v : Word) (s : State) : hostPreset (.mem p) v s = s.memWrite p v := rfl

/-- A preset register reads as the value, and every other register as before (R243). -/
theorem hostPreset_reg_x (r q : Reg) (v : Word) (s : State) :
    (hostPreset (.reg r) v s).x q = if q = r then v else s.x q := by
  rw [hostPreset_reg, setX_x]

/-- A halted core is shown whole (R245). -/
theorem hostInspect_of_halted {s : State} {c : HaltCause} (h : s.status = .halted c) : hostInspect s = some s := by
  simp only [hostInspect, h]

/-- Settles O19: a preset is an update of one element, whose reads the laws of registers and of memory tell. -/
theorem presetSetsOneElementAndInspectShowsAll : Obligations.PresetSetsOneElementAndInspectShowsAll :=
  ⟨fun r v s => ⟨hostPreset_reg r v s, fun q => hostPreset_reg_x r q v s⟩,
    fun v s => ⟨hostPreset_sp v s, hostPreset_ex v s⟩,
    fun p v s => ⟨s.mem.write p v, hostPreset_mem p v s, fun q => read_write s.mem p q v⟩,
    fun _ _ => hostInspect_of_halted⟩

end Sys2Proof.Machine
end
